-- ==== Sys2Proof/Word.lean ====
section
/-! DEFINITION. The word types of the core: 16-bit words and addresses, the 12-bit immediate, bytes and texts. -/

namespace Sys2Proof

/-- A 16-bit word: ACC (`XLEN`), PC, MAR and HL_ADDR (`PCW`), IR, MBR and a memory slot (`IW`), rule R5. -/
abbrev Word := BitVec 16

/-- A byte, the unit the model's memory cells are kept in (entry 1 of the assumption log). -/
abbrev Byte := BitVec 8

/-- The immediate field of format `I`, `IMMW` = 12 bits (rules R5, R71). -/
abbrev Imm := BitVec 12

/-- The opcode field of format `I`, `OPW` = 3 bits (rules R5, R71). -/
abbrev Opcode := BitVec 3

/-- A valid slot address, `AW` = 4 bits (rule R5). -/
abbrev SlotAddr := BitVec 4

/-- An instruction text of the source, as its characters (rules R80 to R88). -/
abbrev Text := List Char

end Sys2Proof
end

