-- ==== Sys2Proof/Syntax.lean ====
section
/-! DEFINITION. The instruction set: one constructor per row of the opcode table, and the decoder's result types. -/

namespace Sys2Proof

/-- The eight rows of the opcode map (rule R72). Every row has format `I` (rule R71), so every constructor carries the
operand-present bit `p` and the 12-bit field `imm`; on NOP, HLT, RSV6 and RSV7 execution ignores both (rule R76). -/
inductive Instr where
  /-- NOP, no operation (rule R142). -/
  | nop (p : Bool) (imm : Imm)
  /-- MOV, load ACC with the operand (rule R130). -/
  | mov (p : Bool) (imm : Imm)
  /-- ADD, add the operand to ACC (rule R131). -/
  | add (p : Bool) (imm : Imm)
  /-- SUB, subtract the operand from ACC (rule R132). -/
  | sub (p : Bool) (imm : Imm)
  /-- JMP, set PC to the clamped operand (rule R140). -/
  | jmp (p : Bool) (imm : Imm)
  /-- HLT, halt (rule R141). -/
  | hlt (p : Bool) (imm : Imm)
  /-- RSV6, reserved, acts as NOP (rule R143). -/
  | rsv6 (p : Bool) (imm : Imm)
  /-- RSV7, reserved, acts as NOP; the word of an unknown mnemonic (rule R144). -/
  | rsv7 (p : Bool) (imm : Imm)
  deriving DecidableEq, Repr

/-- The operation classes of `DecodeWord` (rule R101); `noplike` gathers NOP and the two reserved opcodes. -/
inductive OpClass where
  | mov | add | sub | jmp | hlt | noplike
  deriving DecidableEq, Repr

/-- The record that `DecodeWord` returns (rule R101). -/
structure DecodedWord where
  op : Opcode
  p : Bool
  imm : Imm
  cls : OpClass
  hasOperand : Bool
  operand : Int
  deriving DecidableEq, Repr

/-- The ALU's operation select (rules R103, R134). -/
inductive AluOp where
  | passA | passB | add | sub
  deriving DecidableEq, Repr

/-- The PC multiplexer's select (rules R103, R145). -/
inductive PcSel where
  | inc | jump | hold
  deriving DecidableEq, Repr

/-- The control signals of the execute datapath (rule R103). -/
structure ControlSignals where
  accWe : Bool
  aluOp : AluOp
  aluB : Word
  pcSel : PcSel
  jmpTgt : Word
  haltSet : Bool
  deriving DecidableEq, Repr

end Sys2Proof
end

