-- ==== Sys2Proof/Config.lean ====
section
/-! DEFINITION. The parameters of rule R5 that are not widths. Nothing here is a free value: the spec leaves none open. -/

namespace Sys2Proof

/-- `NSLOT`, the number of instruction-memory slots (rule R5). -/
abbrev Config.nslot : Nat := 16

/-- `ADDR_MAX`, the highest valid slot address (rule R5). -/
abbrev Config.addrMax : Nat := 15

/-- `NOP_WORD` (rules R5, R78): the word of absent or empty text and of an out-of-range fetch, the reset value of IR and MBR. -/
abbrev Config.nopWord : Word := 0x0000#16

/-- `INIT_IMAGE` (rule R190), slot 0 first: MOV 5, ADD 3, SUB 1, JMP 0, HLT, then NOP in every further slot.
The spec takes the source's only five-instruction program as the image (its decision D17); entry 2. -/
def Config.initImage : List Word :=
  [0x3005#16, 0x5003#16, 0x7001#16, 0x9000#16, 0xA000#16,
   Config.nopWord, Config.nopWord, Config.nopWord, Config.nopWord, Config.nopWord, Config.nopWord,
   Config.nopWord, Config.nopWord, Config.nopWord, Config.nopWord, Config.nopWord]

end Sys2Proof
end

