-- ==== Sys2Proof/WellFormed.lean ====
section
/-! DEFINITION. The checks the spec makes on an instruction, a literal and a slot address. No word is illegal (rule R77) and
the types hold the widths of the fields, so EVERY term of `Instr` may be encoded, decoded and run; what can be ill-formed is
an instruction that is not canonical (rule R78), a literal (rule R87) and a loader's address (rule R53). -/

namespace Sys2Proof

/-- Is the literal one that fits the 12-bit signed operand, [-2048, 2047] (rules R74, R87)? -/
def operandInRange (n : Int) : Bool := decide (-2048 ≤ n) && decide (n ≤ 2047)

/-- Is the address one of the memory's slots, [0, 15] (rules R51, R53)? -/
def slotInRange (a : Int) : Bool := decide (0 ≤ a) && decide (a ≤ (Config.addrMax : Int))

/-- The canonical instructions (rule R78): `imm` = 0 whenever `p` = 0, no operand on NOP, HLT and RSV7, and never RSV6. -/
def Instr.canonical : Instr → Bool
  | .nop p imm => !p && decide (imm = 0#12)
  | .mov p imm => p || decide (imm = 0#12)
  | .add p imm => p || decide (imm = 0#12)
  | .sub p imm => p || decide (imm = 0#12)
  | .jmp p imm => p || decide (imm = 0#12)
  | .hlt p imm => !p && decide (imm = 0#12)
  | .rsv6 _ _ => false
  | .rsv7 p imm => !p && decide (imm = 0#12)

/-- An instruction is well-formed when its word can be stored and run. The spec makes no demand: "All 65536 words decode
and execute" (rule R77), so the check refuses nothing and statements about well-formed instructions quantify over all of
`Instr`; the demands the spec does make are the three checks above. -/
def Instr.wellFormed : Instr → Bool
  | .nop _ _ => true
  | .mov _ _ => true
  | .add _ _ => true
  | .sub _ _ => true
  | .jmp _ _ => true
  | .hlt _ _ => true
  | .rsv6 _ _ => true
  | .rsv7 _ _ => true

end Sys2Proof
end

