-- ==== Sys2Proof/Decode.lean ====
section
/-! DEFINITION. The instruction decoder (40_decoder.md), the encoder (30_encoding.md part A), and both over bytes. -/

namespace Sys2Proof

/-! ### Fields of format `I` (rule R71) -/

/-- `op`, bits 15:13. -/
def opField (w : Word) : Opcode := w.extractLsb' 13 3

/-- `p`, bit 12: 1 = operand present (rule R73). -/
def pField (w : Word) : Bool := w.getLsbD 12

/-- `imm`, bits 11:0. -/
def immField (w : Word) : Imm := w.extractLsb' 0 12

/-- The instruction a word holds (rule R72), total: every word is one of the eight rows (rule R77). The three scrutinees are
the bits of `op`, most significant first. -/
def decodeWord (w : Word) : Instr :=
  match w.getLsbD 15, w.getLsbD 14, w.getLsbD 13 with
  | false, false, false => .nop (pField w) (immField w)
  | false, false, true => .mov (pField w) (immField w)
  | false, true, false => .add (pField w) (immField w)
  | false, true, true => .sub (pField w) (immField w)
  | true, false, false => .jmp (pField w) (immField w)
  | true, false, true => .hlt (pField w) (immField w)
  | true, true, false => .rsv6 (pField w) (immField w)
  | true, true, true => .rsv7 (pField w) (immField w)

/-! ### The decoder's record (rule R101) -/

/-- `cls`: the operation class of an opcode number. -/
def classOf (op : Opcode) : OpClass :=
  if op = 1#3 then .mov
  else if op = 2#3 then .add
  else if op = 3#3 then .sub
  else if op = 4#3 then .jmp
  else if op = 5#3 then .hlt
  else .noplike

/-- The classes that take an operand: MOV, ADD, SUB, JMP (rule R101). -/
def OpClass.takesOperand : OpClass → Bool
  | .mov => true
  | .add => true
  | .sub => true
  | .jmp => true
  | .hlt => false
  | .noplike => false

/-- `DecodeWord(w)` (rule R101). -/
def decodeRecord (w : Word) : DecodedWord :=
  { op := opField w
    p := pField w
    imm := immField w
    cls := classOf (opField w)
    hasOperand := pField w && (classOf (opField w)).takesOperand
    operand := (immField w).toInt }

/-! ### The encoder (rules R71, R72) -/

/-- The opcode number of an instruction (rule R72). -/
def Instr.opcode : Instr → Opcode
  | .nop _ _ => 0#3
  | .mov _ _ => 1#3
  | .add _ _ => 2#3
  | .sub _ _ => 3#3
  | .jmp _ _ => 4#3
  | .hlt _ _ => 5#3
  | .rsv6 _ _ => 6#3
  | .rsv7 _ _ => 7#3

/-- Format `I` put together: `word = (op << 13) | (p << 12) | imm` (rule R71). -/
def formatI (op : Opcode) (p : Bool) (imm : Imm) : Word :=
  (op.setWidth 16 <<< 13) ||| ((BitVec.ofBool p).setWidth 16 <<< 12) ||| imm.setWidth 16

/-- The word of an instruction. -/
def encode : Instr → Word
  | .nop p imm => formatI 0#3 p imm
  | .mov p imm => formatI 1#3 p imm
  | .add p imm => formatI 2#3 p imm
  | .sub p imm => formatI 3#3 p imm
  | .jmp p imm => formatI 4#3 p imm
  | .hlt p imm => formatI 5#3 p imm
  | .rsv6 p imm => formatI 6#3 p imm
  | .rsv7 p imm => formatI 7#3 p imm

/-! ### Bytes

The core has no byte order (rule R56). Images outside it are written most significant digit first, bit 15 on the left, and
the model lays a word's two bytes out in that order (entry 1). -/

/-- The byte of a word that is laid out first: bits 15:8. -/
def highByte (w : Word) : Byte := w.extractLsb' 8 8

/-- The byte of a word that is laid out second: bits 7:0. -/
def lowByte (w : Word) : Byte := w.extractLsb' 0 8

/-- The word of two bytes, the first of them bits 15:8. -/
def wordOfBytes (hi lo : Byte) : Word := hi ++ lo

/-- A word as bytes. -/
def wordBytes (w : Word) : List Byte := [highByte w, lowByte w]

/-- Why a list of bytes holds no instruction. There is no illegal word (rule R77), so the one reason is that less than one
word is there. Raised by `decodeBytes` only; the core always decodes a whole word, so no step meets it. Safe. -/
inductive DecodeError where
  /-- Fewer than the two bytes of a word. -/
  | truncated
  deriving DecidableEq, Repr

/-- The first instruction of a list of bytes, and the bytes after it: one word each (rule R70). -/
def decodeBytes : List Byte → Except DecodeError (Instr × List Byte)
  | hi :: lo :: rest => .ok (decodeWord (wordOfBytes hi lo), rest)
  | [_] => .error .truncated
  | [] => .error .truncated

/-- The bytes of an instruction. -/
def encodeBytes (i : Instr) : List Byte := wordBytes (encode i)

/-- The one word of a table word of `nbits` bits `w`: bit 0 is the word's least significant bit, bits above `nbits` are 0. -/
def tableWord (nbits w : Nat) : Word := BitVec.ofNat 16 (w % 2 ^ nbits)

/-- The instruction the decoder reads from a table word, laid out in bytes as above. -/
def decodeTableWord (nbits w : Nat) : Option Instr :=
  match decodeBytes (wordBytes (tableWord nbits w)) with
  | .ok (i, _) => some i
  | .error _ => none

end Sys2Proof
end

