-- ==== Sys2Proof/Machine/State.lean ====
section
/-! DEFINITION. The state of the core (10_state.md), the reasons a step may stop, and the power-on state. -/

namespace Sys2Proof.Machine

/-- `stage`, the last stage transition performed (rule R26). `execute` is never seen between events. -/
inductive Stage where
  | idle | fetch | decode | execute
  deriving DecidableEq, Repr

/-- `rc_pos`, the stage the run sequencer performs next (rule R30 (c)); the unused code 0b11 is not representable (entry 8). -/
inductive RcPos where
  | f | d | x
  deriving DecidableEq, Repr

/-- The faults of the core: none. "The core raises no synchronous exception" (rule R170), and every malformed input has a
defined effect (rules R171 to R173), so nobody raises one; that is exact, hence safe. -/
inductive Fault where
  deriving DecidableEq, Repr

/-- The refusals of a step. Every instruction has its meaning and every edge its effect, so no step refuses. -/
inductive Refusal where
  /-- The instruction with this mnemonic has no meaning yet. It would be raised by an arm of `exec`; no arm does. Safe. -/
  | notModelled (mnemonic : String)
  deriving DecidableEq, Repr

/-- What the host's input ports hold at one rising edge of `clk` (rule R160). `mem_raddr` drives no state and is an argument
of the outputs instead (entry 16). -/
structure EdgeInputs where
  /-- `por`, power-on initialisation. -/
  por : Bool
  /-- `rst`, the `reset` command. -/
  rst : Bool
  /-- `cmd`: 0 NONE, 1 FETCH, 2 DECODE, 3 EXECUTE, 4 RUN; 5, 6, 7 are treated as NONE. -/
  cmd : BitVec 3
  /-- `mem_we`, the `setMemory` strobe. -/
  memWe : Bool
  /-- `mem_waddr`. -/
  memWaddr : SlotAddr
  /-- `mem_wdata`. -/
  memWdata : Word
  deriving DecidableEq, Repr

/-- The instruction memory as byte cells at strictly rising addresses, none equal to what an unlisted address reads as. Slot
`a` is the cells `2a` (bits 15:8) and `2a + 1` (bits 7:0); the core itself only ever moves whole words (entry 1). -/
abbrev Memory := List Host.Cell

/-- The state of the core and the host's port samples still to come. -/
structure State where
  /-- PC, the slot address the next Fetch will use; unsigned, may leave [0, 15] (rule R21). -/
  pc : Word
  /-- IR, the word copied from MBR by Decode; feeds only the decoded view (rule R22). -/
  ir : Word
  /-- ACC, two's-complement (rule R23). -/
  acc : Word
  /-- `MAR_V`; false is the "unset" sentinel (rule R24). -/
  marV : Bool
  /-- MAR, the address latched by Fetch (rule R24). -/
  mar : Word
  /-- MBR, the word the last Fetch obtained; the word Execute decodes (rule R25). -/
  mbr : Word
  /-- `stage` (rule R26). -/
  stage : Stage
  /-- `halted` (rule R27). -/
  halted : Bool
  /-- `running`, the visible flag; not the lock (rule R28). -/
  running : Bool
  /-- `HL_V` (rule R29). -/
  hlV : Bool
  /-- `HL_ADDR` (rule R29). -/
  hlAddr : Word
  /-- `busy`, the hidden lock: an automatic loop is in flight (rule R30 (a)). -/
  busy : Bool
  /-- `cancel`, the hidden cancellation signal (rule R30 (b)). -/
  cancel : Bool
  /-- `rc_pos`, hidden; has meaning only while `busy` (rule R30 (c)). -/
  rcPos : RcPos
  /-- `IMEM` (rules R33, R50). -/
  imem : Memory
  /-- The model's own field: the samples of the host's ports at the coming edges, oldest first. An edge takes the first one;
  when none is left the ports are idle (entry 3). -/
  pending : List EdgeInputs
  deriving DecidableEq, Repr

/-- The power-on state (rule R190): every register, status bit and hidden bit at its power-on value, memory holding
`INIT_IMAGE`, which is what unlisted cells read as. No port sample is pending. -/
def State.reset : State :=
  { pc := 0x0000#16
    ir := Config.nopWord
    acc := 0x0000#16
    marV := false
    mar := 0x0000#16
    mbr := Config.nopWord
    stage := .idle
    halted := false
    running := false
    hlV := false
    hlAddr := 0x0000#16
    busy := false
    cancel := false
    rcPos := .f
    imem := []
    pending := [] }

end Sys2Proof.Machine
end

