-- ==== Sys2Proof/Machine/Flags.lean ====
section
/-! DEFINITION. The status and control bits (10_state.md section 2). The core has no status flags, condition codes or
predicates (rule R31), so no instruction computes one; what stands here is the gate the bits form, the flag HLT sets, the
flags the loop sets and clears, and the codes of the two small fields. -/

namespace Sys2Proof.Machine

/-- A host command `fetch`, `decode`, `execute` or `runAll` is accepted if and only if `halted` = 0 and `busy` = 0
(rules R116, R150). -/
def State.accepts (s : State) : Bool := !s.halted && !s.busy

/-- HLT's flag: `halted <- 1` (rule R141). -/
def State.setHalted (s : State) : State := { s with halted := true }

/-- `LoopExit` (rule R154): `running` and `busy` go to 0, `rc_pos` to F, nothing else changes. -/
def State.loopExit (s : State) : State := { s with running := false, busy := false, rcPos := .f }

/-- `rc_pos <- r`, the sequencer's next stage (rules R151 to R153). -/
def State.withRcPos (s : State) (r : RcPos) : State := { s with rcPos := r }

/-- An accepted `runAll` (rule R150). -/
def State.runAllAccept (s : State) : State :=
  { s with running := true, busy := true, cancel := false, stage := .idle, rcPos := .f }

/-- The 2-bit codes of `stage` (rule R26). -/
def Stage.code : Stage → BitVec 2
  | .idle => 0b00#2
  | .fetch => 0b01#2
  | .decode => 0b10#2
  | .execute => 0b11#2

/-- The 2-bit codes of `rc_pos` (rule R30). -/
def RcPos.code : RcPos → BitVec 2
  | .f => 0b00#2
  | .d => 0b01#2
  | .x => 0b10#2

end Sys2Proof.Machine
end

