-- ==== Sys2Proof/Machine/Operands.lean ====
section
/-! DEFINITION. The operand forms: the implicit registers ACC and PC and the 12-bit signed immediate (rule R148), the
clamped jump target (rules R140, R146), the ALU (rule R134) and the control signals (rule R103). -/

namespace Sys2Proof.Machine

/-- The operand at ACC width, `sext_16(imm)` (rule R74). -/
def immValue (imm : Imm) : Word := imm.signExtend 16

/-- The operand of MOV, ADD, SUB and JMP: present when `p` = 1 (rule R73). -/
def operand? (p : Bool) (imm : Imm) : Option Imm := if p then some imm else none

/-- `clamp(v, lo, hi)` on mathematical integers (rule R146). -/
def clamp (v lo hi : Int) : Int := if v < lo then lo else if hi < v then hi else v

/-- The target of a JMP with an operand: `zext_16(clamp(signed(imm), 0, 15))` (rule R140). -/
def jumpTarget (imm : Imm) : Word := BitVec.ofInt 16 (clamp imm.toInt 0 (Config.addrMax : Int))

/-- The incrementer: PC + 1 modulo 2^16, not clamped (rule R145). -/
def pcInc (pc : Word) : Word := pc + 1#16

/-- The ALU (rule R134): one 16-bit output and no carry, overflow, zero or sign. -/
def alu (op : AluOp) (a b : Word) : Word :=
  match op with
  | .passA => a
  | .passB => b
  | .add => a + b
  | .sub => a - b

/-- `alu_op` (rule R103). -/
def aluOpOf : OpClass → AluOp
  | .mov => .passB
  | .add => .add
  | .sub => .sub
  | .jmp => .passA
  | .hlt => .passA
  | .noplike => .passA

/-- `acc_we` before the operand is looked at: the classes that write ACC (rule R103). -/
def accWriteClass : OpClass → Bool
  | .mov => true
  | .add => true
  | .sub => true
  | .jmp => false
  | .hlt => false
  | .noplike => false

/-- `pc_sel` (rule R103). -/
def pcSelOf (d : DecodedWord) : PcSel :=
  match d.cls with
  | .hlt => .hold
  | .jmp => if d.hasOperand then .jump else .inc
  | .mov => .inc
  | .add => .inc
  | .sub => .inc
  | .noplike => .inc

/-- The control signals of the execute datapath, from `DecodeWord(MBR)` (rule R103). -/
def controlSignals (d : DecodedWord) : ControlSignals :=
  { accWe := d.hasOperand && accWriteClass d.cls
    aluOp := aluOpOf d.cls
    aluB := immValue d.imm
    pcSel := pcSelOf d
    jmpTgt := jumpTarget d.imm
    haltSet := decide (d.cls = .hlt) }

end Sys2Proof.Machine
end

