-- ==== Sys2Proof/Machine/Ops.lean ====
section
/-! DEFINITION. The named operations over memory and registers: the memory's cells and words (20_memory.md), the Fetch and
Decode transitions and the end of Execute (41_cycle_fsm.md), power-on and reset (70_reset_and_hazards.md). The core takes no
exception and returns from none (rules R170, R176, R177), so there is no operation for either. -/

namespace Sys2Proof.Machine

/-! ### Memory cells -/

/-- The power-on word of a slot: `INIT_IMAGE` (rule R190). -/
def initWord (slot : Nat) : Word := Config.initImage.getD slot Config.nopWord

/-- What an unlisted cell reads as: its byte of `INIT_IMAGE` (entry 2); 0 beyond the 16 slots, where no cell is ever read. -/
def defaultByte (k : Nat) : Byte :=
  if k % 2 = 0 then highByte (initWord (k / 2)) else lowByte (initWord (k / 2))

/-- The number of byte cells that the 16 slots take. -/
def cellCount : Nat := 2 * Config.nslot

/-- One byte of the memory's storage. -/
def Memory.readByte (m : Memory) (k : Nat) : Byte :=
  match m with
  | [] => defaultByte k
  | (j, b) :: rest => if j = k then b else Memory.readByte rest k

/-- Every entry at address `k` taken out. -/
def Memory.eraseCell (m : Memory) (k : Nat) : Memory :=
  match m with
  | [] => []
  | (j, b) :: rest => if j = k then Memory.eraseCell rest k else (j, b) :: Memory.eraseCell rest k

/-- An entry put before the first one at a higher address. -/
def Memory.insertCell (m : Memory) (k : Nat) (v : Byte) : Memory :=
  match m with
  | [] => [(k, v)]
  | (j, b) :: rest => if k < j then (k, v) :: (j, b) :: rest else (j, b) :: Memory.insertCell rest k v

/-- A byte written; writing what an unlisted cell reads as removes the entry. -/
def Memory.writeByte (m : Memory) (k : Nat) (v : Byte) : Memory :=
  if v = defaultByte k then m.eraseCell k else (m.eraseCell k).insertCell k v

/-- The addresses of a list of cells rise strictly, from `lo` on. -/
def Memory.risesFrom (lo : Nat) (m : Memory) : Bool :=
  match m with
  | [] => true
  | (j, _) :: rest => decide (lo ≤ j) && Memory.risesFrom (j + 1) rest

/-- The canonical form of the memory: addresses strictly rising and all of the 16 slots, no entry equal to what an unlisted
cell reads as. -/
def Memory.wf (m : Memory) : Bool :=
  Memory.risesFrom 0 m && m.all (fun c => decide (c.1 < cellCount) && decide (c.2 ≠ defaultByte c.1))

/-! ### Memory words: the only accesses of the core (rules R50, R58) -/

/-- `IMEM[a]`. -/
def Memory.readSlot (m : Memory) (a : SlotAddr) : Word :=
  wordOfBytes (m.readByte (2 * a.toNat)) (m.readByte (2 * a.toNat + 1))

/-- `IMEM[a] <- w`. -/
def Memory.writeSlot (m : Memory) (a : SlotAddr) (w : Word) : Memory :=
  (m.writeByte (2 * a.toNat) (highByte w)).writeByte (2 * a.toNat + 1) (lowByte w)

/-- `MemRead(addr, 1)` (rule R52): the slot when `addr` is at most 15, `NOP_WORD` otherwise. -/
def Memory.fetchRead (m : Memory) (addr : Word) : Word :=
  if addr.toNat ≤ Config.addrMax then m.readSlot (addr.setWidth 4) else Config.nopWord

/-- The memory's 16 words, slot 0 first: "the full memory sequence" of the snapshot (rule R8). -/
def Memory.words (m : Memory) : List Word :=
  (List.range Config.nslot).map (fun a => m.readSlot (BitVec.ofNat 4 a))

/-- The words of an image stored into consecutive slots from `a` on. -/
def Memory.store (m : Memory) (a : Nat) (image : List Word) : Memory :=
  match image with
  | [] => m
  | w :: rest => Memory.store (m.writeSlot (BitVec.ofNat 4 a) w) (a + 1) rest

/-- The memory an image gives: its first 16 words, `NOP_WORD` in every further slot (rule R190). -/
def Memory.ofImage (image : List Word) : Memory :=
  Memory.store [] 0 ((image ++ List.replicate Config.nslot Config.nopWord).take Config.nslot)

/-- `MemWrite(a, 1, w)`, the host's memory edit (rule R53): accepted in every state, changes the slot and nothing else. -/
def State.setMemory (s : State) (a : SlotAddr) (w : Word) : State := { s with imem := s.imem.writeSlot a w }

/-! ### Stage transitions (rules R117, R118, R119) -/

/-- Fetch (rule R117). -/
def State.fetchStage (s : State) : State :=
  { s with
    stage := .fetch
    marV := true
    mar := s.pc
    hlV := true
    hlAddr := s.pc
    mbr := s.imem.fetchRead s.pc }

/-- Decode (rule R118). -/
def State.decodeStage (s : State) : State := { s with stage := .decode, ir := s.mbr }

/-- What every Execute does with its pair (nextACC, nextPC) (rule R119): ACC, then PC, the highlight cleared, `stage` back
to idle. The event is atomic, so `stage` = execute in between is not seen (rule R123, entry 14). -/
def State.commitExecute (s : State) (nextAcc nextPc : Word) : State :=
  { s with acc := nextAcc, pc := nextPc, hlV := false, hlAddr := 0x0000#16, stage := .idle }

/-! ### Power-on and reset -/

/-- The `reset` operation (rule R191): `imem`, `busy` and `rcPos` are unchanged. -/
def State.resetOp (s : State) : State :=
  { s with
    pc := 0x0000#16
    acc := 0x0000#16
    ir := Config.nopWord
    mbr := Config.nopWord
    marV := false
    mar := 0x0000#16
    hlV := false
    hlAddr := 0x0000#16
    stage := .idle
    halted := false
    running := false
    cancel := true }

/-- Power-on with a given image (rule R190; the image is a parameter, U12). The host's coming port samples are not state of
the core and stay (entry 16). -/
def State.powerOnWith (image : List Word) (s : State) : State :=
  { State.reset with imem := Memory.ofImage image, pending := s.pending }

/-- Power-on with `INIT_IMAGE` (rule R190). -/
def State.powerOn (s : State) : State := s.powerOnWith Config.initImage

/-! ### Sequencing of outcomes -/

/-- A step followed by another: a fault or refusal of the first one stays. -/
def andThen (o : Host.Outcome State Fault Refusal) (f : State → Host.Outcome State Fault Refusal) :
    Host.Outcome State Fault Refusal :=
  match o with
  | .next s => f s
  | .fault r => .fault r
  | .refused r => .refused r

end Sys2Proof.Machine
end

