-- ==== Sys2Proof/Machine/AccOps.lean ====
section
/-! DEFINITION. The accumulator operations MOV, ADD, SUB (42_alu_ops.md). -/

namespace Sys2Proof.Machine

/-- nextACC of an accumulator operation: the ALU's output when the operand is present, ACC otherwise (rules R120, R134). -/
def nextAcc (op : AluOp) (p : Bool) (imm : Imm) (acc : Word) : Word :=
  match operand? p imm with
  | some n => alu op acc (immValue n)
  | none => acc

/-- MOV (rule R130). -/
def execMov (p : Bool) (imm : Imm) (s : State) : Host.Outcome State Fault Refusal :=
  .next (s.commitExecute (nextAcc .passB p imm s.acc) (pcInc s.pc))

/-- ADD (rule R131). -/
def execAdd (p : Bool) (imm : Imm) (s : State) : Host.Outcome State Fault Refusal :=
  .next (s.commitExecute (nextAcc .add p imm s.acc) (pcInc s.pc))

/-- SUB (rule R132). -/
def execSub (p : Bool) (imm : Imm) (s : State) : Host.Outcome State Fault Refusal :=
  .next (s.commitExecute (nextAcc .sub p imm s.acc) (pcInc s.pc))

end Sys2Proof.Machine
end

