-- ==== Sys2Proof/Machine/ControlOps.lean ====
section
/-! DEFINITION. The control operations JMP, HLT, NOP, RSV6, RSV7 (43_control_ops.md). -/

namespace Sys2Proof.Machine

/-- nextPC of JMP: the clamped operand when present, PC + 1 otherwise (rule R140). -/
def jumpNextPc (p : Bool) (imm : Imm) (pc : Word) : Word :=
  match operand? p imm with
  | some k => jumpTarget k
  | none => pcInc pc

/-- NOP (rule R142): `p` and `imm` are ignored (rule R76). -/
def execNop (_p : Bool) (_imm : Imm) (s : State) : Host.Outcome State Fault Refusal :=
  .next (s.commitExecute s.acc (pcInc s.pc))

/-- JMP (rule R140). -/
def execJmp (p : Bool) (imm : Imm) (s : State) : Host.Outcome State Fault Refusal :=
  .next (s.commitExecute s.acc (jumpNextPc p imm s.pc))

/-- HLT (rule R141): PC held, `halted` set; `p` and `imm` are ignored (rule R76). -/
def execHlt (_p : Bool) (_imm : Imm) (s : State) : Host.Outcome State Fault Refusal :=
  .next (s.commitExecute s.acc s.pc).setHalted

/-- RSV6 (rule R143): identical to NOP; not an illegal instruction. -/
def execRsv6 (_p : Bool) (_imm : Imm) (s : State) : Host.Outcome State Fault Refusal :=
  .next (s.commitExecute s.acc (pcInc s.pc))

/-- RSV7, the word of an unknown mnemonic (rule R144): identical to NOP. -/
def execRsv7 (_p : Bool) (_imm : Imm) (s : State) : Host.Outcome State Fault Refusal :=
  .next (s.commitExecute s.acc (pcInc s.pc))

end Sys2Proof.Machine
end

