-- ==== Sys2Proof/Machine/Dispatch.lean ====
section
/-! DEFINITION. `exec`: the Execute transition (rule R119) with the decoded instruction given, one arm per instruction. -/

namespace Sys2Proof.Machine

def exec (i : Instr) (s : State) : Host.Outcome State Fault Refusal :=
  match i with
  | .nop p imm => Sys2Proof.Machine.execNop p imm s
  | .mov p imm => Sys2Proof.Machine.execMov p imm s
  | .add p imm => Sys2Proof.Machine.execAdd p imm s
  | .sub p imm => Sys2Proof.Machine.execSub p imm s
  | .jmp p imm => Sys2Proof.Machine.execJmp p imm s
  | .hlt p imm => Sys2Proof.Machine.execHlt p imm s
  | .rsv6 p imm => Sys2Proof.Machine.execRsv6 p imm s
  | .rsv7 p imm => Sys2Proof.Machine.execRsv7 p imm s

end Sys2Proof.Machine
end

