-- ==== Sys2Proof/Machine/RunController.lean ====
section
/-! DEFINITION. Execute on MBR, the run sequencer, the clock edge and the events (44_run_controller.md, 00_scope.md). -/

namespace Sys2Proof.Machine

/-- Execute (rule R119): the word in MBR, not the one in IR, is decoded and run (`90_conflicts.md` C1). -/
def State.executeStage (s : State) : Host.Outcome State Fault Refusal := exec (decodeWord s.mbr) s

/-! ### The sequencer (rules R151 to R153) -/

/-- Step F, the top of a loop iteration: the one place where `cancel` is tested (rule R151). -/
def State.seqF (s : State) : State :=
  if s.cancel || s.halted then s.loopExit else s.fetchStage.withRcPos .d

/-- Step D (rule R152). -/
def State.seqD (s : State) : State :=
  if s.halted then s.loopExit else s.decodeStage.withRcPos .x

/-- What follows the Execute of step X (rule R153): the halt short-circuit, then the runaway guard on the PC just written. -/
def State.afterExecute (s : State) : State :=
  if s.halted then s.loopExit
  else if Config.addrMax < s.pc.toNat then s.loopExit
  else s.withRcPos .f

/-- Step X (rule R153). -/
def State.seqX (s : State) : Host.Outcome State Fault Refusal :=
  if s.halted then .next s.loopExit
  else andThen s.executeStage (fun t => .next t.afterExecute)

/-- One sequencer step, chosen by `rc_pos` (rule R157). -/
def State.seqStep (s : State) : Host.Outcome State Fault Refusal :=
  match s.rcPos with
  | .f => .next s.seqF
  | .d => .next s.seqD
  | .x => s.seqX

/-! ### One clock edge (rule R161) -/

/-- The host commands of `cmd` (rule R160). -/
inductive Command where
  | none | fetch | decode | execute | run
  deriving DecidableEq, Repr

/-- The codes of `cmd`: 5, 6 and 7 are NONE (rules R160, R161). -/
def commandOf (cmd : BitVec 3) : Command :=
  if cmd = 1#3 then .fetch
  else if cmd = 2#3 then .decode
  else if cmd = 3#3 then .execute
  else if cmd = 4#3 then .run
  else .none

/-- A host command taken when no loop is in flight: ignored while halted (rules R116, R122, R150). -/
def State.hostCommand (s : State) (c : Command) : Host.Outcome State Fault Refusal :=
  match c with
  | .none => .next s
  | .fetch => if s.halted then .next s else .next s.fetchStage
  | .decode => if s.halted then .next s else .next s.decodeStage
  | .execute => if s.halted then .next s else s.executeStage
  | .run => if s.halted then .next s else .next s.runAllAccept

/-- The memory write port of an edge (rules R53, R161). -/
def State.editPort (s : State) (i : EdgeInputs) : State :=
  if i.memWe then s.setMemory i.memWaddr i.memWdata else s

/-- The first part of an edge (rule R161): `rst` over the sequencer over `cmd`. -/
def State.edgeAction (s : State) (i : EdgeInputs) : Host.Outcome State Fault Refusal :=
  if i.rst then .next s.resetOp
  else if s.busy then s.seqStep
  else s.hostCommand (commandOf i.cmd)

/-- What one rising edge of `clk` does (rule R161): `por` overrides everything; the memory edit comes last. -/
def State.edge (s : State) (i : EdgeInputs) : Host.Outcome State Fault Refusal :=
  if i.por then .next s.powerOn
  else andThen (s.edgeAction i) (fun t => .next (t.editPort i))

/-- The ports with nothing asked: no strobe, `cmd` NONE. -/
def idleInputs : EdgeInputs :=
  { por := false, rst := false, cmd := 0#3, memWe := false, memWaddr := 0#4, memWdata := 0#16 }

/-- The ports with one host command asked. -/
def commandInputs (cmd : BitVec 3) : EdgeInputs := { idleInputs with cmd := cmd }

/-! ### Events (rule R6) -/

/-- The events of rule R6 and power-on. -/
inductive Event where
  | powerOn
  | fetch | decode | execute | runAll | reset
  | setMemory (a : SlotAddr) (w : Word)
  | seqStep
  deriving DecidableEq, Repr

/-- One atomic event. A host command is gated by `halted` and `busy` (rules R116, R150); a sequencer step happens only while
`busy` = 1 (rule R157); `reset` and `setMemory` are never gated (rules R53, R158). -/
def State.applyEvent (s : State) (e : Event) : Host.Outcome State Fault Refusal :=
  match e with
  | .powerOn => .next s.powerOn
  | .fetch => if s.accepts then .next s.fetchStage else .next s
  | .decode => if s.accepts then .next s.decodeStage else .next s
  | .execute => if s.accepts then s.executeStage else .next s
  | .runAll => if s.accepts then .next s.runAllAccept else .next s
  | .reset => .next s.resetOp
  | .setMemory a w => .next (s.setMemory a w)
  | .seqStep => if s.busy then s.seqStep else .next s

/-- A sequence of events, in order. -/
def State.applyEvents (s : State) (es : List Event) : Host.Outcome State Fault Refusal :=
  match es with
  | [] => .next s
  | e :: rest => andThen (s.applyEvent e) (fun t => State.applyEvents t rest)

/-- The event of a host command. -/
def Command.events : Command → List Event
  | .none => []
  | .fetch => [.fetch]
  | .decode => [.decode]
  | .execute => [.execute]
  | .run => [.runAll]

/-- The events of an edge (rule R161): "[reset | sequencer step | command], then [edit]", or power-on alone. -/
def State.edgeEvents (s : State) (i : EdgeInputs) : List Event :=
  if i.por then [.powerOn]
  else
    (if i.rst then [.reset] else if s.busy then [.seqStep] else (commandOf i.cmd).events) ++
      (if i.memWe then [.setMemory i.memWaddr i.memWdata] else [])

end Sys2Proof.Machine
end

