-- ==== Sys2Proof/Machine/Step.lean ====
section
/-! DEFINITION. The step: one rising edge of the clock (rule R161) on the first pending port sample. -/

namespace Sys2Proof.Machine

/-- One rising edge of `clk`. The edge takes the first pending sample of the host's ports; with none pending the ports are
idle (entries 3, 4). -/
def step (s : State) : Host.Outcome State Fault Refusal :=
  match s.pending with
  | [] => s.edge idleInputs
  | i :: rest => State.edge { s with pending := rest } i

/-- The state in which the very next step runs the table word (entry 5). Execute takes its instruction from MBR (rule R119),
so the word stands there; the next edge is an Execute: by an EXECUTE command, or by the sequencer at X when a loop is in
flight; and nothing blocks it (`halted` = 0). -/
def State.withFetchWord (s : State) (nbits w : Nat) : State :=
  { s with
    mbr := tableWord nbits w
    halted := false
    rcPos := if s.busy then .x else s.rcPos
    pending := commandInputs 3#3 :: s.pending }

end Sys2Proof.Machine
end

