-- ==== Sys2Proof/Machine/Assembler.lean ====
section
/-! DEFINITION. The text form (30_encoding.md part B): the source's text decoder, `Assemble`, the loader's `setMemory`, and
printing. All of it stands outside the core: no step uses it, and its refusals are results of these functions. -/

namespace Sys2Proof.Machine

/-! ### Tokenising (rule R80) -/

/-- The six whitespace characters: 0x09 to 0x0D and 0x20 (rule R80). -/
def isSpace (c : Char) : Bool :=
  decide (c.toNat = 0x20) || (decide (0x09 ≤ c.toNat) && decide (c.toNat ≤ 0x0D))

/-- A character put in front of the first piece. -/
def consToFirst (c : Char) (pieces : List Text) : List Text :=
  match pieces with
  | [] => [[c]]
  | p :: ps => (c :: p) :: ps

/-- The pieces of a text cut at every maximal run of whitespace; `inRun` says that the character before was whitespace. The
text is not trimmed, so leading or trailing whitespace gives an empty first or last piece (rule R80). -/
def pieces (inRun : Bool) (t : Text) : List Text :=
  match t with
  | [] => [[]]
  | c :: cs =>
    if isSpace c then (if inRun then pieces true cs else [] :: pieces true cs)
    else consToFirst c (pieces false cs)

/-- `token0`, the first piece. -/
def token0 (t : Text) : Text := (pieces false t).headD []

/-- `token1`, the second piece if there is one; later pieces are ignored. -/
def token1 (t : Text) : Option Text := (pieces false t)[1]?

/-! ### Mnemonic and operand (rules R81, R82) -/

/-- ASCII upper-casing of a character (rule R81). -/
def upperChar (c : Char) : Char :=
  if 0x61 ≤ c.toNat ∧ c.toNat ≤ 0x7A then Char.ofNat (c.toNat - 0x20) else c

/-- ASCII upper-casing of a token. -/
def upperText (t : Text) : Text := t.map upperChar

/-- The value of a decimal digit. -/
def digitValue (c : Char) : Option Nat :=
  if 0x30 ≤ c.toNat ∧ c.toNat ≤ 0x39 then some (c.toNat - 0x30) else none

/-- The number that decimal digits continue from `n`; none when a character is no digit. -/
def digitsFrom (n : Nat) (t : Text) : Option Nat :=
  match t with
  | [] => some n
  | c :: cs =>
    match digitValue c with
    | some d => digitsFrom (10 * n + d) cs
    | none => none

/-- One or more decimal digits. -/
def parseDigits (t : Text) : Option Nat :=
  match t with
  | [] => none
  | c :: cs => digitsFrom 0 (c :: cs)

/-- A base-10 signed integer: the whole token is an optional sign and one or more digits (rule R82). -/
def parseInt (t : Text) : Option Int :=
  match t with
  | [] => none
  | c :: cs =>
    if c = '+' then (parseDigits cs).map (fun n : Nat => (n : Int))
    else if c = '-' then (parseDigits cs).map (fun n : Nat => -(n : Int))
    else (parseDigits (c :: cs)).map (fun n : Nat => (n : Int))

/-- The operand of a text: absent when there is no second token or it fails to parse (rule R82). -/
def parseOperand (t : Text) : Option Int := (token1 t).bind parseInt

/-! ### The source's text decoder, `decode(text) -> Instruction` -/

/-- The source's Instruction: an operation tag and an optional signed integer operand (rule R100). The tag of an unknown
mnemonic is "the literal upper-cased token" (rule R85). -/
structure SourceInstr where
  tag : Text
  operand : Option Int
  deriving DecidableEq, Repr

/-- The source's decoder (rules R80, R81, R82, R84); `none` is absent text. -/
def sourceDecode (t : Option Text) : SourceInstr :=
  match t with
  | none => { tag := ['N', 'O', 'P'], operand := none }
  | some [] => { tag := ['N', 'O', 'P'], operand := none }
  | some (c :: cs) => { tag := upperText (token0 (c :: cs)), operand := parseOperand (c :: cs) }

/-! ### Assemble (rule R83) -/

/-- The refusals outside the core. Safe: nothing is written. -/
inductive AsmRefusal where
  /-- A literal outside [-2048, 2047] on MOV, ADD, SUB or JMP; raised by `assemble` (rule R87). -/
  | immediateOutOfRange
  /-- A slot address outside [0, 15]; raised by the loader `setMemoryText` (rule R53). -/
  | outOfRange
  deriving DecidableEq, Repr

/-- The word of an operation that takes an operand (the last four lines of rule R83). -/
def assembleOperand (op : Opcode) (operand : Option Int) : Except AsmRefusal Word :=
  match operand with
  | none => .ok (formatI op false 0#12)
  | some n => if operandInRange n then .ok (formatI op true (BitVec.ofInt 12 n)) else .error .immediateOutOfRange

/-- The word of a decoded text (the `case` of rule R83). -/
def assembleSource (d : SourceInstr) : Except AsmRefusal Word :=
  if d.tag = ['N', 'O', 'P'] then .ok (formatI 0#3 false 0#12)
  else if d.tag = ['H', 'L', 'T'] then .ok (formatI 5#3 false 0#12)
  else if d.tag = ['M', 'O', 'V'] then assembleOperand 1#3 d.operand
  else if d.tag = ['A', 'D', 'D'] then assembleOperand 2#3 d.operand
  else if d.tag = ['S', 'U', 'B'] then assembleOperand 3#3 d.operand
  else if d.tag = ['J', 'M', 'P'] then assembleOperand 4#3 d.operand
  else .ok (formatI 7#3 false 0#12)

/-- `Assemble(text) -> word` (rule R83), `none` being absent text. -/
def assemble (t : Option Text) : Except AsmRefusal Word := assembleSource (sourceDecode t)

/-- The loader's `setMemory(address, text)` (rule R53): an address outside [0, 15] is refused with `OutOfRange`, a text
`Assemble` refuses is refused likewise, and nothing is written then. When both are bad the address is reported (entry 11). -/
def State.setMemoryText (s : State) (address : Int) (text : Option Text) : Except AsmRefusal State :=
  if slotInRange address then
    match assemble text with
    | .ok w => .ok (s.setMemory (BitVec.ofInt 4 address) w)
    | .error r => .error r
  else .error .outOfRange

/-! ### Printing (rule R86) -/

/-- The digit character of a number below 10. -/
def digitChar (n : Nat) : Char := Char.ofNat (0x30 + n)

/-- The decimal digits of a number below 10^`width`, most significant first, no leading zeros. -/
def decimalDigits (width n : Nat) : Text :=
  match width with
  | 0 => []
  | k + 1 => if n < 10 then [digitChar n] else decimalDigits k (n / 10) ++ [digitChar (n % 10)]

/-- A signed operand in decimal. Four digits hold every operand (rule R74). -/
def decimalInt (n : Int) : Text :=
  if n < 0 then '-' :: decimalDigits 4 n.natAbs else decimalDigits 4 n.natAbs

/-- The mnemonic of an instruction, as the opcode map has it (rule R72). -/
def mnemonicText : Instr → Text
  | .nop _ _ => ['N', 'O', 'P']
  | .mov _ _ => ['M', 'O', 'V']
  | .add _ _ => ['A', 'D', 'D']
  | .sub _ _ => ['S', 'U', 'B']
  | .jmp _ _ => ['J', 'M', 'P']
  | .hlt _ _ => ['H', 'L', 'T']
  | .rsv6 _ _ => ['R', 'S', 'V', '6']
  | .rsv7 _ _ => ['R', 'S', 'V', '7']

/-- A mnemonic with the operand behind it when it is present. -/
def withOperand (mnemonic : Text) (p : Bool) (imm : Imm) : Text :=
  if p then mnemonic ++ ' ' :: decimalInt imm.toInt else mnemonic

/-- An instruction as text (rule R86): the mnemonic, and a space and the decimal operand when `p` = 1 and `op` is 1 to 4.
The rule speaks of canonical words; what other words print as is entry 13. -/
def instrText : Instr → Text
  | .nop p imm => mnemonicText (.nop p imm)
  | .mov p imm => withOperand (mnemonicText (.mov p imm)) p imm
  | .add p imm => withOperand (mnemonicText (.add p imm)) p imm
  | .sub p imm => withOperand (mnemonicText (.sub p imm)) p imm
  | .jmp p imm => withOperand (mnemonicText (.jmp p imm)) p imm
  | .hlt p imm => mnemonicText (.hlt p imm)
  | .rsv6 p imm => mnemonicText (.rsv6 p imm)
  | .rsv7 p imm => mnemonicText (.rsv7 p imm)

/-! ### Images outside the core (rule R56) -/

/-- A hexadecimal digit. -/
def hexChar (n : BitVec 4) : Char :=
  if n.toNat < 10 then Char.ofNat (0x30 + n.toNat) else Char.ofNat (0x41 + (n.toNat - 10))

/-- A word as four hexadecimal digits, most significant first (rule R56). -/
def hexWord (w : Word) : Text :=
  [hexChar (w.extractLsb' 12 4), hexChar (w.extractLsb' 8 4), hexChar (w.extractLsb' 4 4), hexChar (w.extractLsb' 0 4)]

/-- A memory as an image: slot 0 first (rule R56). -/
def Memory.hexImage (m : Memory) : List Text := m.words.map hexWord

end Sys2Proof.Machine
end

