-- ==== Sys2Proof/Machine/Datapath.lean ====
section
/-! DEFINITION. The execute datapath as select lines (rules R103, R134, R145): a second design of Execute, driven by the
control signals of `DecodeWord(MBR)`. The step does not use it; a statement says that it does what `exec` does. -/

namespace Sys2Proof.Machine

/-- ACC after Execute: the ALU's output when `acc_we` is true (rule R134). -/
def datapathAcc (c : ControlSignals) (acc : Word) : Word :=
  if c.accWe then alu c.aluOp acc c.aluB else acc

/-- PC after Execute: the PC multiplexer (rule R145). -/
def datapathPc (c : ControlSignals) (pc : Word) : Word :=
  match c.pcSel with
  | .inc => pcInc pc
  | .jump => c.jmpTgt
  | .hold => pc

/-- Execute by the datapath of `DecodeWord(MBR)`. -/
def State.datapathExecute (s : State) : State :=
  let c := controlSignals (decodeRecord s.mbr)
  let t := s.commitExecute (datapathAcc c s.acc) (datapathPc c s.pc)
  if c.haltSet then t.setHalted else t

end Sys2Proof.Machine
end

