-- ==== Sys2Proof/Machine/Snapshot.lean ====
section
/-! DEFINITION. What can be observed of the core: the snapshot (rule R8), the register file by index (rule R20) and the output
ports (rule R160). `busy`, `cancel` and `rc_pos` are in none of them. -/

namespace Sys2Proof.Machine

/-- The read-only snapshot: stage, running, halted, highlight address, the five registers, the memory (rule R8). -/
structure Snapshot where
  stage : Stage
  running : Bool
  halted : Bool
  highlightAddress : Option Word
  pc : Word
  ir : Word
  acc : Word
  mar : Option Word
  mbr : Word
  memory : List Word
  deriving DecidableEq, Repr

/-- MAR as it reads: 0 when it is unset (rule R24). -/
def State.marOut (s : State) : Word := if s.marV then s.mar else 0x0000#16

/-- HL_ADDR as it reads: 0 when it is not valid (rule R29). -/
def State.hlOut (s : State) : Word := if s.hlV then s.hlAddr else 0x0000#16

/-- The snapshot of a state. -/
def State.snapshot (s : State) : Snapshot :=
  { stage := s.stage
    running := s.running
    halted := s.halted
    highlightAddress := if s.hlV then some s.hlAddr else none
    pc := s.pc
    ir := s.ir
    acc := s.acc
    mar := if s.marV then some s.mar else none
    mbr := s.mbr
    memory := s.imem.words }

/-- `x[i]`, a register-file entry by its index: 0 PC, 1 IR, 2 ACC, 3 MAR, 4 MBR (rule R20). -/
def State.readReg (s : State) (i : Fin 5) : Word :=
  match i with
  | 0 => s.pc
  | 1 => s.ir
  | 2 => s.acc
  | 3 => s.marOut
  | 4 => s.mbr

/-- The output ports (rule R160). -/
structure Outputs where
  memRdata : Word
  pc : Word
  mar : Word
  hlAddr : Word
  ir : Word
  mbr : Word
  acc : Word
  marV : Bool
  hlV : Bool
  stage : BitVec 2
  running : Bool
  halted : Bool
  irOp : Opcode
  irP : Bool
  irImm : Imm
  deriving DecidableEq, Repr

/-- The output ports of a state, with the snapshot read address on `mem_raddr`. `ir_op`, `ir_p`, `ir_imm` are the fields of
`DecodeWord(IR)` at all times (rule R102 (a)). -/
def State.outputs (s : State) (memRaddr : SlotAddr) : Outputs :=
  { memRdata := s.imem.readSlot memRaddr
    pc := s.pc
    mar := s.marOut
    hlAddr := s.hlOut
    ir := s.ir
    mbr := s.mbr
    acc := s.acc
    marV := s.marV
    hlV := s.hlV
    stage := s.stage.code
    running := s.running
    halted := s.halted
    irOp := (decodeRecord s.ir).op
    irP := (decodeRecord s.ir).p
    irImm := (decodeRecord s.ir).imm }

end Sys2Proof.Machine
end

