-- ==== Sys2Proof/Safety.lean ====
section
/-! DEFINITION. The terms statements use: what a good state is, what an Execute leaves alone, and which parts of the state
are only looked at by the host. -/

namespace Sys2Proof.Machine

/-- The invariants of rule R34 that speak of one state, and the memory's canonical form. Rule R34 (a) speaks of a step (see
the statements) and R34 (g) holds by the type of `rcPos`. -/
structure State.Inv (s : State) : Prop where
  /-- The memory is in canonical form. -/
  memoryWf : s.imem.wf = true
  /-- R34 (b), first half. -/
  marUnset : s.marV = false → s.mar = 0#16
  /-- R34 (b), second half. -/
  highlightUnset : s.hlV = false → s.hlAddr = 0#16
  /-- R34 (c). -/
  runningBusy : s.running = true → s.busy = true
  /-- R34 (d): a loop in flight that does not run has been cancelled. -/
  drainCancelled : s.busy = true → s.running = false → s.cancel = true
  /-- R34 (e): a halted core is quiet. -/
  haltedQuiet : s.halted = true → s.busy = false ∧ s.running = false ∧ s.stage = .idle ∧ s.hlV = false
  /-- R34 (f). -/
  stageSeen : s.stage ≠ .execute

/-- What the registers a Fetch writes say about each other in every state reachable from power-on (rules R24, R25, R29 and the
corner case of R141; an inference of the spec or of the model, not a rule). -/
structure State.StagingInv (s : State) : Prop where
  /-- Before the first Fetch after power-on or reset, MBR and IR hold their reset word. -/
  unsetWords : s.marV = false → s.mbr = Config.nopWord ∧ s.ir = Config.nopWord
  /-- A Fetch from outside the memory obtained `NOP_WORD`. -/
  outOfRangeWord : Config.addrMax < s.mar.toNat → s.marV = true → s.mbr = Config.nopWord
  /-- The highlight marks the slot being fetched. -/
  highlightIsMar : s.hlV = true → s.marV = true ∧ s.hlAddr = s.mar ∧ s.pc = s.mar
  /-- A staged HLT stands at a PC in range. -/
  haltInRange : opField s.mbr = 5#3 → s.pc.toNat ≤ Config.addrMax
  /-- So does a staged JMP with an operand. -/
  jumpInRange : opField s.mbr = 4#3 → pField s.mbr = true → s.pc.toNat ≤ Config.addrMax

/-- What every Execute leaves as it was, and what it does to `stage` and the highlight, whatever the instruction (rule R119):
IR, MAR, MBR, the loop's bits, every byte and so every slot of the memory, and the host's coming samples. ACC, PC and `halted`
are the instruction's own. -/
structure ExecuteFrame (s t : State) : Prop where
  ir : t.ir = s.ir
  marV : t.marV = s.marV
  mar : t.mar = s.mar
  mbr : t.mbr = s.mbr
  running : t.running = s.running
  busy : t.busy = s.busy
  cancel : t.cancel = s.cancel
  rcPos : t.rcPos = s.rcPos
  pending : t.pending = s.pending
  bytes : ∀ k, t.imem.readByte k = s.imem.readByte k
  slots : ∀ a, t.imem.readSlot a = s.imem.readSlot a
  stage : t.stage = .idle
  hlV : t.hlV = false
  hlAddr : t.hlAddr = 0#16

/-- The state with its presentation parts wiped: `stage`, the highlight and IR. -/
def State.withoutPresentation (s : State) : State :=
  { s with ir := Config.nopWord, stage := .idle, hlV := false, hlAddr := 0#16 }

/-- The state with ACC wiped. -/
def State.withoutAcc (s : State) : State := { s with acc := 0#16 }

/-- An input sample that asks for neither power-on nor reset. -/
def EdgeInputs.quiet (i : EdgeInputs) : Bool := !i.por && !i.rst

/-- An input sample that neither resets the core nor edits its memory; it may ask for a command. -/
def EdgeInputs.commandOnly (i : EdgeInputs) : Bool := !i.por && !i.rst && !i.memWe

/-- `k` steps, stopping at the first fault or refusal (none occurs). -/
def State.run (s : State) (k : Nat) : Host.Outcome State Fault Refusal :=
  match k with
  | 0 => .next s
  | k + 1 => andThen (step s) (fun t => State.run t k)

/-- The input sample that the next step takes. -/
def State.nextInputs (s : State) : EdgeInputs := s.pending.headD idleInputs

/-- The state once the next step has taken its input sample. -/
def State.popped (s : State) : State := { s with pending := s.pending.tail }

/-- The events of the next `k` edges, in order: those of the first edge on the state as it is, then those of the further edges on
the state the first one leaves (rule R161, last sentences). -/
def State.runEvents (s : State) (k : Nat) : List Event :=
  match k with
  | 0 => []
  | k + 1 =>
    s.popped.edgeEvents s.nextInputs ++
      match step s with
      | .next t => State.runEvents t k
      | .fault _ => []
      | .refused _ => []

/-- The host's next sample asks for this command and for nothing else. -/
def State.asks (s : State) (cmd : BitVec 3) : Prop := s.nextInputs.cmd = cmd ∧ s.nextInputs.commandOnly = true

/-- The coming edge, if it neither resets nor powers on, performs a Fetch. -/
def State.Fetches (s : State) : Prop :=
  (s.busy = true ∧ s.rcPos = .f ∧ s.cancel = false ∧ s.halted = false) ∨ (s.accepts = true ∧ s.nextInputs.cmd = 1#3)

/-- The coming edge, if it neither resets nor powers on, performs a Decode. -/
def State.Decodes (s : State) : Prop :=
  (s.busy = true ∧ s.rcPos = .d ∧ s.halted = false) ∨ (s.accepts = true ∧ s.nextInputs.cmd = 2#3)

/-- The coming edge, if it neither resets nor powers on, performs an Execute. -/
def State.Executes (s : State) : Prop :=
  (s.busy = true ∧ s.rcPos = .x ∧ s.halted = false) ∨ (s.accepts = true ∧ s.nextInputs.cmd = 3#3)

/-- The coming edge, if it neither resets nor powers on, accepts a `runAll`. -/
def State.AcceptsRun (s : State) : Prop := s.accepts = true ∧ s.nextInputs.cmd = 4#3

/-- Every state bit at its power-on value and the memory holding the default image (rule R190). -/
structure State.PowerOnValues (s : State) : Prop where
  pc : s.pc = 0#16
  ir : s.ir = 0#16
  acc : s.acc = 0#16
  marV : s.marV = false
  mar : s.mar = 0#16
  mbr : s.mbr = 0#16
  stage : s.stage = .idle
  halted : s.halted = false
  running : s.running = false
  hlV : s.hlV = false
  hlAddr : s.hlAddr = 0#16
  busy : s.busy = false
  cancel : s.cancel = false
  rcPos : s.rcPos = .f
  memory : s.imem.words =
    [0x3005#16, 0x5003#16, 0x7001#16, 0x9000#16, 0xA000#16, 0#16, 0#16, 0#16, 0#16, 0#16, 0#16, 0#16, 0#16, 0#16, 0#16, 0#16]

/-- The four operations that take an operand, as the source's tags (rules R81, R101). -/
def operandTags : List Text := [['M', 'O', 'V'], ['A', 'D', 'D'], ['S', 'U', 'B'], ['J', 'M', 'P']]

/-- `OpTable(d, ACC, PC)`, the source's operation table row for row: (nextACC, nextPC) (rule R120). -/
def opTable (d : DecodedWord) (acc pc : Word) : Word × Word :=
  match d.cls with
  | .mov => (if d.hasOperand then BitVec.ofInt 16 d.operand else acc, pc + 1#16)
  | .add => (if d.hasOperand then acc + BitVec.ofInt 16 d.operand else acc, pc + 1#16)
  | .sub => (if d.hasOperand then acc - BitVec.ofInt 16 d.operand else acc, pc + 1#16)
  | .jmp => (acc, if d.hasOperand then BitVec.ofInt 16 (clamp d.operand 0 15) else pc + 1#16)
  | .hlt => (acc, pc)
  | .noplike => (acc, pc + 1#16)

/-- The opcode of a tag: one of the six mnemonics, or 7 for any other (rules R72, R81, R83). -/
def opcodeOfTag (tag : Text) : Opcode :=
  if tag = ['N', 'O', 'P'] then 0#3
  else if tag = ['M', 'O', 'V'] then 1#3
  else if tag = ['A', 'D', 'D'] then 2#3
  else if tag = ['S', 'U', 'B'] then 3#3
  else if tag = ['J', 'M', 'P'] then 4#3
  else if tag = ['H', 'L', 'T'] then 5#3
  else 7#3

/-- The class that the source's tag stands for: one of the six mnemonics, or no effect for any other (rule R105). -/
def classOfTag (tag : Text) : OpClass :=
  if tag = ['M', 'O', 'V'] then .mov
  else if tag = ['A', 'D', 'D'] then .add
  else if tag = ['S', 'U', 'B'] then .sub
  else if tag = ['J', 'M', 'P'] then .jmp
  else if tag = ['H', 'L', 'T'] then .hlt
  else .noplike

end Sys2Proof.Machine
end

