-- ==== Sys2Proof/Certificates/Slice0/Obligations.lean ====
section
/-! DEFINITION. The statements for the provers. Each docstring names the rule of the spec it formalises. -/

open Sys2Proof Sys2Proof.Machine

/-! ### Encoding -/

/-- Decoding the word, or the bytes, of any instruction gives it back, and leaves the bytes after it. Every instruction is
well-formed: no word is illegal (rule R77). The order of a word's two bytes is the model's choice (entry 1). -/
def Obligations.DecodeOfEncodeIsIdentity : Prop :=
  ∀ i : Instr, decodeWord (encode i) = i ∧
    ∀ rest : List Byte, decodeBytes (encodeBytes i ++ rest) = .ok (i, rest)

/-- No bit of a word is lost by decoding, so every one of the 65536 words has exactly one instruction (rule R77). -/
def Obligations.EncodeOfDecodeIsIdentity : Prop :=
  ∀ w : Word, encode (decodeWord w) = w

/-- Rule R71: the three fields are bits 15:13, 12 and 11:0, and a word is `(op << 13) | (p << 12) | imm`. -/
def Obligations.FormatIFieldsAndValue : Prop :=
  ∀ w : Word,
    (opField w).toNat = w.toNat / 8192 ∧
    pField w = decide (w.toNat / 4096 % 2 = 1) ∧
    (immField w).toNat = w.toNat % 4096 ∧
    w = ((opField w).setWidth 16 <<< 13) ||| ((BitVec.ofBool (pField w)).setWidth 16 <<< 12) ||| (immField w).setWidth 16

/-- Rule R101, `DecodeWord`, with the fields as numbers: the class by opcode number, `has_operand` on MOV, ADD, SUB and JMP
with `p` = 1 only, and the operand as the two's-complement value of `imm`. -/
def Obligations.DecodeWordRecord : Prop :=
  ∀ w : Word,
    (decodeRecord w).op.toNat = w.toNat / 8192 ∧
    (decodeRecord w).p = decide (w.toNat / 4096 % 2 = 1) ∧
    (decodeRecord w).imm.toNat = w.toNat % 4096 ∧
    (decodeRecord w).cls =
      (match w.toNat / 8192 with
        | 1 => OpClass.mov
        | 2 => OpClass.add
        | 3 => OpClass.sub
        | 4 => OpClass.jmp
        | 5 => OpClass.hlt
        | _ => OpClass.noplike) ∧
    ((decodeRecord w).hasOperand = true ↔
      w.toNat / 4096 % 2 = 1 ∧ 1 ≤ w.toNat / 8192 ∧ w.toNat / 8192 ≤ 4) ∧
    (decodeRecord w).operand =
      (if w.toNat % 4096 < 2048 then ((w.toNat % 4096 : Nat) : Int) else ((w.toNat % 4096 : Nat) : Int) - 4096)

/-- The rows of the opcode table, match against mask (the opcode map of rule R72): the word's instruction is the row's one
exactly when the word under the row's mask is the row's match. -/
def Obligations.OpcodeTableRows : Prop :=
  ∀ w : Word,
    ((∃ p imm, decodeWord w = .nop p imm) ↔ w &&& 0xE000#16 = 0x0000#16) ∧
    ((∃ p imm, decodeWord w = .mov p imm) ↔ w &&& 0xE000#16 = 0x2000#16) ∧
    ((∃ p imm, decodeWord w = .add p imm) ↔ w &&& 0xE000#16 = 0x4000#16) ∧
    ((∃ p imm, decodeWord w = .sub p imm) ↔ w &&& 0xE000#16 = 0x6000#16) ∧
    ((∃ p imm, decodeWord w = .jmp p imm) ↔ w &&& 0xE000#16 = 0x8000#16) ∧
    ((∃ p imm, decodeWord w = .hlt p imm) ↔ w &&& 0xE000#16 = 0xA000#16) ∧
    ((∃ p imm, decodeWord w = .rsv6 p imm) ↔ w &&& 0xE000#16 = 0xC000#16) ∧
    ((∃ p imm, decodeWord w = .rsv7 p imm) ↔ w &&& 0xE000#16 = 0xE000#16)

/-- A sanity statement: words of the spec's own examples (R83, R101 and the rows of 95_test_vectors.md section 2.2) decode to
the instructions they stand for. -/
def Obligations.SampleWordsDecode : Prop :=
  decodeWord 0x0000#16 = .nop false 0x000#12 ∧
  decodeWord 0x0123#16 = .nop false 0x123#12 ∧
  decodeWord 0x3005#16 = .mov true 0x005#12 ∧
  decodeWord 0x2ABC#16 = .mov false 0xABC#12 ∧
  decodeWord 0x5003#16 = .add true 0x003#12 ∧
  decodeWord 0x7001#16 = .sub true 0x001#12 ∧
  decodeWord 0x9FFD#16 = .jmp true 0xFFD#12 ∧
  decodeWord 0xBFFF#16 = .hlt true 0xFFF#12 ∧
  decodeWord 0xC000#16 = .rsv6 false 0x000#12 ∧
  decodeWord 0xE000#16 = .rsv7 false 0x000#12

/-! ### Instructions: result, frame, completion -/

/-- Rule R130, MOV, in every state and for every operand: ACC is the operand when present and unchanged otherwise, PC goes to
PC + 1 modulo 2^16, nothing else changes but Execute's `stage` and highlight; and the words and texts of the instruction. -/
def Obligations.MovLoadsOperand : Prop :=
  (∀ (p : Bool) (imm : Imm) (s : State), ∃ t, exec (.mov p imm) s = .next t ∧
    (p = true → t.acc.toInt = imm.toInt) ∧
    (p = false → t.acc = s.acc) ∧
    t.pc.toNat = (s.pc.toNat + 1) % 65536 ∧
    t.halted = s.halted ∧
    ExecuteFrame s t) ∧
  (∀ imm : Imm, encode (.mov true imm) = 0x3000#16 ||| imm.setWidth 16) ∧
  encode (.mov false 0#12) = 0x2000#16 ∧
  (∀ imm : Imm, assemble (some (['M', 'O', 'V'] ++ ' ' :: decimalInt imm.toInt)) = .ok (encode (.mov true imm))) ∧
  assemble (some ['M', 'O', 'V']) = .ok (encode (.mov false 0#12))

/-- Rule R131, ADD, in every state and for every operand: ACC is ACC + operand wrapped to [-32768, 32767] when the operand is
present and unchanged otherwise; PC + 1; nothing else changes; and the words and texts of the instruction. -/
def Obligations.AddAddsOperand : Prop :=
  (∀ (p : Bool) (imm : Imm) (s : State), ∃ t, exec (.add p imm) s = .next t ∧
    (p = true → t.acc.toInt = (s.acc.toInt + imm.toInt).bmod 65536) ∧
    (p = false → t.acc = s.acc) ∧
    t.pc.toNat = (s.pc.toNat + 1) % 65536 ∧
    t.halted = s.halted ∧
    ExecuteFrame s t) ∧
  (∀ imm : Imm, encode (.add true imm) = 0x5000#16 ||| imm.setWidth 16) ∧
  encode (.add false 0#12) = 0x4000#16 ∧
  (∀ imm : Imm, assemble (some (['A', 'D', 'D'] ++ ' ' :: decimalInt imm.toInt)) = .ok (encode (.add true imm))) ∧
  assemble (some ['A', 'D', 'D']) = .ok (encode (.add false 0#12))

/-- Rule R132, SUB, in every state and for every operand: ACC is ACC - operand wrapped to [-32768, 32767] when the operand is
present and unchanged otherwise; PC + 1; nothing else changes; and the words and texts of the instruction. -/
def Obligations.SubSubtractsOperand : Prop :=
  (∀ (p : Bool) (imm : Imm) (s : State), ∃ t, exec (.sub p imm) s = .next t ∧
    (p = true → t.acc.toInt = (s.acc.toInt - imm.toInt).bmod 65536) ∧
    (p = false → t.acc = s.acc) ∧
    t.pc.toNat = (s.pc.toNat + 1) % 65536 ∧
    t.halted = s.halted ∧
    ExecuteFrame s t) ∧
  (∀ imm : Imm, encode (.sub true imm) = 0x7000#16 ||| imm.setWidth 16) ∧
  encode (.sub false 0#12) = 0x6000#16 ∧
  (∀ imm : Imm, assemble (some (['S', 'U', 'B'] ++ ' ' :: decimalInt imm.toInt)) = .ok (encode (.sub true imm))) ∧
  assemble (some ['S', 'U', 'B']) = .ok (encode (.sub false 0#12))

/-- Rule R133, the arithmetic laws (width by the spec's decision D1): the signed result is the unique integer of
[-32768, 32767] congruent to the true sum or difference modulo 65536; the bit pattern is the unsigned one too; SUB of -2048
adds 2048; ADD of 0, SUB of 0 and MOV of the current ACC value leave ACC unchanged. -/
def Obligations.ArithmeticWrapsModulo : Prop :=
  ∀ (a : Word) (imm : Imm),
    (∀ n : Int, n = (alu .add a (immValue imm)).toInt ↔
      -32768 ≤ n ∧ n ≤ 32767 ∧ (65536 : Int) ∣ n - (a.toInt + imm.toInt)) ∧
    (∀ n : Int, n = (alu .sub a (immValue imm)).toInt ↔
      -32768 ≤ n ∧ n ≤ 32767 ∧ (65536 : Int) ∣ n - (a.toInt - imm.toInt)) ∧
    ((65536 : Int) ∣ ((alu .add a (immValue imm)).toNat : Int) - ((a.toNat : Int) + imm.toInt)) ∧
    ((65536 : Int) ∣ ((alu .sub a (immValue imm)).toNat : Int) - ((a.toNat : Int) - imm.toInt)) ∧
    alu .sub a (immValue 0x800#12) = a + 2048#16 ∧
    alu .add a (immValue 0#12) = a ∧
    alu .sub a (immValue 0#12) = a ∧
    (a = immValue imm → alu .passB a (immValue imm) = a)

/-- Rule R140, JMP, in every state and for every operand: PC is the operand clamped to [0, 15] when present and PC + 1
otherwise; ACC and everything else unchanged; and the words and texts of the instruction. -/
def Obligations.JmpGoesToClampedOperand : Prop :=
  (∀ (p : Bool) (imm : Imm) (s : State), ∃ t, exec (.jmp p imm) s = .next t ∧
    (p = true → (t.pc.toNat : Int) = min 15 (max 0 imm.toInt)) ∧
    (p = false → t.pc.toNat = (s.pc.toNat + 1) % 65536) ∧
    t.acc = s.acc ∧
    t.halted = s.halted ∧
    ExecuteFrame s t) ∧
  (∀ imm : Imm, encode (.jmp true imm) = 0x9000#16 ||| imm.setWidth 16) ∧
  encode (.jmp false 0#12) = 0x8000#16 ∧
  (∀ imm : Imm, assemble (some (['J', 'M', 'P'] ++ ' ' :: decimalInt imm.toInt)) = .ok (encode (.jmp true imm))) ∧
  assemble (some ['J', 'M', 'P']) = .ok (encode (.jmp false 0#12))

/-- Rule R146: `clamp` on the integers, JMP's use of it, and its form in hardware terms: bit 11 gives 0, else any of bits 10:4
gives 15, else bits 3:0. -/
def Obligations.ClampInHardwareTerms : Prop :=
  (∀ v lo hi : Int, clamp v lo hi = if v < lo then lo else if v > hi then hi else v) ∧
  (∀ (imm : Imm) (s : State), ∃ t, exec (.jmp true imm) s = .next t ∧ (t.pc.toNat : Int) = clamp imm.toInt 0 15 ∧
    t.pc =
      (if imm.getLsbD 11 = true then 0#16
       else if imm.extractLsb' 4 7 ≠ 0#7 then 15#16
       else (imm.extractLsb' 0 4).setWidth 16))

/-- Rule R141, HLT: PC and ACC unchanged and `halted` set, from every state, whatever `p` and `imm`; the words 0xA000 to
0xBFFF; afterwards every host command is ignored and an edit and a reset are still taken; a HLT of the sequencer ends the loop
in the same edge; PC stays at the slot that MAR names. -/
def Obligations.HltHaltsTheCore : Prop :=
  (∀ (p : Bool) (imm : Imm) (s : State), ∃ t, exec (.hlt p imm) s = .next t ∧
    t.acc = s.acc ∧ t.pc = s.pc ∧ t.halted = true ∧ ExecuteFrame s t ∧
    (s.fetchStage.mar = s.pc ∧ s.fetchStage.marV = true) ∧ (s.mar = s.pc → t.mar = t.pc)) ∧
  encode (.hlt false 0#12) = 0xA000#16 ∧ assemble (some ['H', 'L', 'T']) = .ok 0xA000#16 ∧
  (∀ w : Word, (∃ p imm, decodeWord w = .hlt p imm) ↔ 0xA000 ≤ w.toNat ∧ w.toNat ≤ 0xBFFF) ∧
  (∀ s : State, s.halted = true → s.busy = false → s.nextInputs.quiet = true →
    step s = .next (if s.nextInputs.memWe then s.popped.setMemory s.nextInputs.memWaddr s.nextInputs.memWdata
      else s.popped)) ∧
  (∀ s : State, s.nextInputs.por = false → s.nextInputs.rst = true → ∃ t, step s = .next t ∧ t.halted = false) ∧
  (∀ s : State, s.busy = true → s.rcPos = .x → s.halted = false → s.nextInputs.quiet = true → opField s.mbr = 5#3 →
    ∃ t, step s = .next t ∧ t.halted = true ∧ t.pc = s.pc ∧ t.acc = s.acc ∧ t.busy = false ∧ t.running = false)

/-- Rule R142, NOP: only PC advances, whatever `p` and `imm`; the words 0x0000 to 0x1FFF; absent and empty text assemble to it. -/
def Obligations.NopOnlyAdvancesPc : Prop :=
  (∀ (p : Bool) (imm : Imm) (s : State), ∃ t, exec (.nop p imm) s = .next t ∧
    t.acc = s.acc ∧ t.pc.toNat = (s.pc.toNat + 1) % 65536 ∧ t.halted = s.halted ∧ ExecuteFrame s t) ∧
  encode (.nop false 0#12) = 0x0000#16 ∧
  (∀ w : Word, (∃ p imm, decodeWord w = .nop p imm) ↔ w.toNat ≤ 0x1FFF) ∧
  assemble none = .ok 0x0000#16 ∧ assemble (some []) = .ok 0x0000#16 ∧ assemble (some ['N', 'O', 'P']) = .ok 0x0000#16

/-- Rule R143, RSV6: not illegal, only PC advances; the words 0xC000 to 0xDFFF; `Assemble` never produces one. -/
def Obligations.Rsv6ActsAsNop : Prop :=
  (∀ (p : Bool) (imm : Imm) (s : State), ∃ t, exec (.rsv6 p imm) s = .next t ∧
    t.acc = s.acc ∧ t.pc.toNat = (s.pc.toNat + 1) % 65536 ∧ t.halted = s.halted ∧ ExecuteFrame s t) ∧
  (∀ w : Word, (∃ p imm, decodeWord w = .rsv6 p imm) ↔ 0xC000 ≤ w.toNat ∧ w.toNat ≤ 0xDFFF) ∧
  (∀ (text : Option Text) (w : Word), assemble text = .ok w → opField w ≠ 6#3)

/-- Rule R144, RSV7: only PC advances; the words 0xE000 to 0xFFFF; every text whose upper-cased first token is none of the six
mnemonics assembles to 0xE000. -/
def Obligations.Rsv7ActsAsNop : Prop :=
  (∀ (p : Bool) (imm : Imm) (s : State), ∃ t, exec (.rsv7 p imm) s = .next t ∧
    t.acc = s.acc ∧ t.pc.toNat = (s.pc.toNat + 1) % 65536 ∧ t.halted = s.halted ∧ ExecuteFrame s t) ∧
  encode (.rsv7 false 0#12) = 0xE000#16 ∧
  (∀ w : Word, (∃ p imm, decodeWord w = .rsv7 p imm) ↔ 0xE000 ≤ w.toNat) ∧
  (∀ text : Text, text ≠ [] → upperText (token0 text) ∉ operandTags →
    upperText (token0 text) ≠ ['H', 'L', 'T'] → upperText (token0 text) ≠ ['N', 'O', 'P'] →
    assemble (some text) = .ok 0xE000#16)

/-- Rule R135: every text of MOV, ADD or SUB whose second token is missing or does not parse assembles to a word that leaves
ACC unchanged and advances PC by 1 when executed. -/
def Obligations.MissingOperandOnlyAdvancesPc : Prop :=
  ∀ (text : Text) (s : State),
    upperText (token0 text) = ['M', 'O', 'V'] ∨ upperText (token0 text) = ['A', 'D', 'D'] ∨
      upperText (token0 text) = ['S', 'U', 'B'] →
    (token1 text = none ∨ ∃ tok, token1 text = some tok ∧ parseInt tok = none) →
    ∃ w t, assemble (some text) = .ok w ∧ (decodeRecord w).hasOperand = false ∧
      exec (decodeWord w) s = .next t ∧ t.acc = s.acc ∧ t.pc.toNat = (s.pc.toNat + 1) % 65536

/-! ### Stages and commands -/

/-- Rules R117 and R52: an accepted FETCH latches the full PC into MAR and the highlight and reads the slot, or `NOP_WORD`
when PC is above 15, into MBR; everything else is as before. -/
def Obligations.FetchCommandEffect : Prop :=
  ∀ s : State, s.accepts = true → s.asks 1#3 →
    step s = .next
      { s with
        pending := s.pending.tail
        stage := .fetch
        marV := true
        mar := s.pc
        hlV := true
        hlAddr := s.pc
        mbr := if s.pc.toNat ≤ 15 then s.imem.readSlot (BitVec.ofNat 4 s.pc.toNat) else 0x0000#16 }

/-- Rule R118: an accepted DECODE copies MBR to IR and sets `stage`; everything else is as before. -/
def Obligations.DecodeCommandEffect : Prop :=
  ∀ s : State, s.accepts = true → s.asks 2#3 →
    step s = .next { s with pending := s.pending.tail, stage := .decode, ir := s.mbr }

/-- Rule R150: RUN is accepted if and only if `halted` = 0 and `busy` = 0; accepted, it sets `running` and `busy`, clears
`cancel`, sets `stage` to idle and `rc_pos` to F and changes nothing else, at any PC; not accepted, the step is that of no
command. -/
def Obligations.RunCommandEffect : Prop :=
  (∀ s : State, s.halted = false → s.busy = false → s.asks 4#3 →
    step s = .next
      { s with
        pending := s.pending.tail
        running := true
        busy := true
        cancel := false
        stage := .idle
        rcPos := .f }) ∧
  (∀ (s : State) (i : EdgeInputs) (rest : List EdgeInputs), (s.halted = true ∨ s.busy = true) →
    step { s with pending := { i with cmd := 4#3 } :: rest } = step { s with pending := { i with cmd := 0#3 } :: rest })

/-- Rules R119 and R120: Execute decodes MBR (not IR), takes nextACC and nextPC from the operation table, sets `halted` on HLT
only, and leaves all else but `stage` and the highlight; in every state and for every word in MBR. -/
def Obligations.ExecuteFollowsOpTable : Prop :=
  ∀ s : State, ∃ t, s.executeStage = .next t ∧ exec (decodeWord s.mbr) s = .next t ∧
    (t.acc, t.pc) = opTable (decodeRecord s.mbr) s.acc s.pc ∧
    t.halted = (s.halted || decide ((decodeRecord s.mbr).cls = .hlt)) ∧
    ExecuteFrame s t

/-- Execute at the step: an edge that performs an Execute runs exactly the instruction decoded from MBR, on the state with
the edge's sample taken; a sequencer step then applies the halt short-circuit and the runaway guard (`afterExecute`), and the
edge ends with the memory edit of its sample. -/
def Obligations.StepRunsDecodedInstruction : Prop :=
  (∀ s : State, s.accepts = true → s.nextInputs.cmd = 3#3 → s.nextInputs.quiet = true →
    ∃ t, exec (decodeWord s.mbr) s.popped = .next t ∧ step s = .next (t.editPort s.nextInputs)) ∧
  (∀ s : State, s.busy = true → s.rcPos = .x → s.halted = false → s.nextInputs.quiet = true →
    ∃ t, exec (decodeWord s.mbr) s.popped = .next t ∧ step s = .next (t.afterExecute.editPort s.nextInputs))

/-- One full cycle, by hand (FETCH, DECODE, EXECUTE) or by the sequencer, runs the instruction stored at PC: IR and MBR hold the
fetched word, MAR the old PC, and ACC, PC and `halted` are what `exec` of the decoded word gives from the start state. An
inference of the spec (41_cycle_fsm.md section 2, the sentence that begins "From a state with `halted` = 0, MBR arbitrary"). -/
def Obligations.CycleRunsInstructionAtPc : Prop :=
  ∀ (s : State) (i j k : EdgeInputs) (rest : List EdgeInputs),
    s.pending = i :: j :: k :: rest →
    i.commandOnly = true → j.commandOnly = true → k.commandOnly = true →
    s.halted = false →
    (s.busy = false ∧ i.cmd = 1#3 ∧ j.cmd = 2#3 ∧ k.cmd = 3#3) ∨ (s.busy = true ∧ s.rcPos = .f ∧ s.cancel = false) →
    ∃ t u, exec (decodeWord (s.imem.fetchRead s.pc)) s = .next t ∧ s.run 3 = .next u ∧
      u.ir = s.imem.fetchRead s.pc ∧ u.mbr = s.imem.fetchRead s.pc ∧
      u.marV = true ∧ u.mar = s.pc ∧ u.stage = .idle ∧ u.hlV = false ∧ u.hlAddr = 0#16 ∧
      u.acc = t.acc ∧ u.pc = t.pc ∧ u.halted = t.halted ∧
      u.imem = s.imem ∧ u.cancel = s.cancel ∧ u.pending = rest

/-- Rules R116 and R122: a stage command is accepted exactly when `halted` = 0 and `busy` = 0, each then performing its
transition; otherwise it changes nothing: the edge does what it would do with no command, and a halted core with no loop in
flight does nothing. The command is dropped, not queued: only its own sample is taken. The sequencer's own transitions pass the
lock but need `halted` = 0. -/
def Obligations.GatedCommandsAreDropped : Prop :=
  (∀ (s : State) (i : EdgeInputs) (rest : List EdgeInputs) (c : BitVec 3), s.accepts = false →
    step { s with pending := { i with cmd := c } :: rest } = step { s with pending := { i with cmd := 0#3 } :: rest }) ∧
  (∀ (s : State) (i : EdgeInputs) (rest : List EdgeInputs), s.halted = true → s.busy = false → i.commandOnly = true →
    step { s with pending := i :: rest } = .next { s with pending := rest }) ∧
  (∀ s : State, s.accepts = true →
    (s.asks 1#3 → step s = .next s.popped.fetchStage) ∧
    (s.asks 2#3 → step s = .next s.popped.decodeStage) ∧
    (s.asks 3#3 → step s = exec (decodeWord s.mbr) s.popped)) ∧
  (∀ s : State, s.accepts = true ↔ s.halted = false ∧ s.busy = false) ∧
  (∀ s : State, s.busy = true → s.nextInputs.commandOnly = true →
    (s.halted = true → step s = .next s.popped.loopExit) ∧
    (s.halted = false → s.rcPos = .f → s.cancel = false → step s = .next (s.popped.fetchStage.withRcPos .d)) ∧
    (s.halted = false → s.rcPos = .d → step s = .next (s.popped.decodeStage.withRcPos .x)) ∧
    (s.halted = false → s.rcPos = .x → ∃ t, exec (decodeWord s.mbr) s.popped = .next t ∧ step s = .next t.afterExecute))

/-- Every clocked run is a run of the atomic events of rule R6: an edge is its own events in the order of
44_run_controller.md section 5, "[reset | sequencer step | command], then [edit]", or power-on alone; and `k` edges are the
events of the first, then those of the second, and so on (`State.runEvents`), one port sample each. -/
def Obligations.ClockedRunIsAnEventRun : Prop :=
  (∀ (s : State) (i : EdgeInputs), s.edge i = s.applyEvents (s.edgeEvents i)) ∧
  (∀ (k : Nat) (s : State), ∃ t : State,
    s.run k = .next t ∧ s.applyEvents (s.runEvents k) = .next { t with pending := s.pending } ∧
      t.pending = s.pending.drop k)

/-! ### Run controller -/

/-- Rule R151 (with `LoopExit` of rule R154): step F leaves the loop when `cancel` or `halted` is set, changing only `running`,
`busy` and `rc_pos`; otherwise it performs a Fetch and goes to D. -/
def Obligations.SequencerStepF : Prop :=
  ∀ s : State, s.busy = true → s.rcPos = .f → s.nextInputs.commandOnly = true →
    (s.cancel = true ∨ s.halted = true →
      step s = .next { s with pending := s.pending.tail, running := false, busy := false, rcPos := .f }) ∧
    (s.cancel = false → s.halted = false →
      step s = .next
        { s with
          pending := s.pending.tail
          stage := .fetch
          marV := true
          mar := s.pc
          hlV := true
          hlAddr := s.pc
          mbr := s.imem.fetchRead s.pc
          rcPos := .d })

/-- Rule R152: step D performs a Decode and goes to X, whatever `cancel` says; halted, it leaves the loop. -/
def Obligations.SequencerStepD : Prop :=
  ∀ s : State, s.busy = true → s.rcPos = .d → s.nextInputs.commandOnly = true →
    (s.halted = false →
      step s = .next { s with pending := s.pending.tail, stage := .decode, ir := s.mbr, rcPos := .x }) ∧
    (s.halted = true →
      step s = .next { s with pending := s.pending.tail, running := false, busy := false, rcPos := .f })

/-- Rule R153: step X executes MBR, leaves the loop when the instruction was HLT or when the PC just written is above 15 (then
without `halted`), and goes on at F otherwise; `cancel` plays no part; halted beforehand, it leaves the loop at once. -/
def Obligations.SequencerStepX : Prop :=
  ∀ s : State, s.busy = true → s.rcPos = .x → s.nextInputs.commandOnly = true →
    (s.halted = true →
      step s = .next { s with pending := s.pending.tail, running := false, busy := false, rcPos := .f }) ∧
    (s.halted = false → ∃ t, exec (decodeWord s.mbr) s.popped = .next t ∧
      (t.halted = true ↔ opField s.mbr = 5#3) ∧
      (t.halted = true ∨ 15 < t.pc.toNat → step s = .next { t with running := false, busy := false, rcPos := .f }) ∧
      (t.halted = false → t.pc.toNat ≤ 15 → step s = .next { t with rcPos := .f }))

/-- The loop leaves [0, 15] only by PC + 1 from 15: when the runaway guard ends it from a PC in range, PC is 16 exactly, `halted`
stays 0, and the instruction was neither HLT nor a JMP with an operand. An inference of the spec (44_run_controller.md
section 2, "after a guard exit PC = 16 exactly"). -/
def Obligations.RunawayGuardStopsAtSixteen : Prop :=
  ∀ s t : State, s.busy = true → s.halted = false → s.rcPos = .x → s.pc.toNat ≤ 15 → s.nextInputs.quiet = true →
    step s = .next t → t.busy = false → t.halted = false →
    s.pc = 15#16 ∧ t.pc = 16#16 ∧ t.running = false ∧ opField s.mbr ≠ 5#3 ∧
      ¬ (opField s.mbr = 4#3 ∧ pField s.mbr = true)

/-- From a PC out of range (below the wrap at 0xFFFF) a RUN is accepted, performs one cycle on `NOP_WORD` and ends by the guard:
PC advances by 1 and nothing is halted. An inference of the spec (44_run_controller.md section 2, "each `runAll` then advances
PC by 1"). -/
def Obligations.RunOutOfRangeAdvancesByOne : Prop :=
  ∀ (s : State) (r i j k : EdgeInputs) (rest : List EdgeInputs),
    s.accepts = true → 15 < s.pc.toNat → s.pc.toNat < 65535 → s.pending = r :: i :: j :: k :: rest → r.cmd = 4#3 →
    r.commandOnly = true → i.commandOnly = true → j.commandOnly = true → k.commandOnly = true →
    s.run 4 = .next
      { s with
        pc := s.pc + 1#16
        ir := 0#16
        marV := true
        mar := s.pc
        mbr := 0#16
        stage := .idle
        hlV := false
        hlAddr := 0#16
        running := false
        busy := false
        cancel := false
        rcPos := .f
        pending := rest }

/-- The drain after a reset of a loop in flight, whatever commands the host issues meanwhile: from F the loop ends at the next
edge in the exact reset state, from X after one NOP and from D after a Decode and a NOP, both with PC = 1; IR and MBR hold
0x0000 and `running` is 0. An inference of the spec (44_run_controller.md section 3, "the drained Decode writes IR = 0x0000 and
the drained Execute acts as NOP and writes PC = 1"). -/
def Obligations.DrainAfterReset : Prop :=
  ∀ (s : State) (r i j k : EdgeInputs) (rest : List EdgeInputs),
    s.busy = true → r.por = false → r.rst = true → r.memWe = false →
    i.commandOnly = true → j.commandOnly = true → k.commandOnly = true →
    (s.rcPos = .f → State.run { s with pending := r :: i :: rest } 2 =
      .next (State.resetOp { s with busy := false, pending := rest })) ∧
    (s.rcPos = .x → ∃ t, State.run { s with pending := r :: i :: j :: rest } 3 = .next t ∧ t.pc = 1#16 ∧
      { t with pc := 0#16 } = State.resetOp { s with busy := false, rcPos := .f, pending := rest }) ∧
    (s.rcPos = .d → ∃ t, State.run { s with pending := r :: i :: j :: k :: rest } 4 = .next t ∧ t.pc = 1#16 ∧
      { t with pc := 0#16 } = State.resetOp { s with busy := false, rcPos := .f, pending := rest })

/-- A loop in flight ends by itself in one of three ways only: HLT (`halted` = 1, PC at its slot), the runaway guard (`halted` = 0,
PC above 15), or cancellation seen at F; in each `running` is 0 afterwards. An inference of the spec (44_run_controller.md
section 6). The premise `halted` = 0 is the invariant's (a loop in flight is never halted). -/
def Obligations.LoopEndsInThreeWays : Prop :=
  ∀ s t : State, s.busy = true → s.halted = false → s.nextInputs.por = false → step s = .next t → t.busy = false →
    t.running = false ∧ s.nextInputs.rst = false ∧
    ((s.rcPos = .x ∧ opField s.mbr = 5#3 ∧ t.halted = true ∧ t.pc = s.pc) ∨
     (s.rcPos = .x ∧ opField s.mbr ≠ 5#3 ∧ t.halted = false ∧ 15 < t.pc.toNat) ∨
     (s.rcPos = .f ∧ s.cancel = true ∧ t.halted = false ∧ t.pc = s.pc))

/-! ### Memory -/

/-- Rule R53: the host's edit is taken in every state and on every edge without power-on; it changes the named slot and nothing
else: the edge does to the rest what it does without the edit, and without it no edge changes memory. The loader refuses an
address outside [0, 15] whatever the text, with `OutOfRange` when the text assembles, and otherwise stores the assembled word
(which refusal a text that does not assemble gets is stated apart: `LoaderReportsTheAddressFirst`). -/
def Obligations.SetMemoryWritesOneSlot : Prop :=
  (∀ (s : State) (i : EdgeInputs) (rest : List EdgeInputs), i.por = false → i.memWe = true →
    ∃ t u, step { s with pending := i :: rest } = .next t ∧
      step { s with pending := { i with memWe := false } :: rest } = .next u ∧
      u.imem = s.imem ∧ t = { u with imem := t.imem } ∧
      ∀ a, t.imem.readSlot a = if a = i.memWaddr then i.memWdata else s.imem.readSlot a) ∧
  (∀ (s : State) (address : Int) (text : Option Text), (address < 0 ∨ 15 < address) →
    (∃ r, s.setMemoryText address text = .error r) ∧
    ∀ w, assemble text = .ok w → s.setMemoryText address text = .error .outOfRange) ∧
  (∀ (s : State) (address : Int) (text : Option Text) (w : Word), 0 ≤ address → address ≤ 15 → assemble text = .ok w →
    ∃ t, s.setMemoryText address text = .ok t ∧ t = { s with imem := t.imem } ∧
      ∀ a, t.imem.readSlot a = if (a.toNat : Int) = address then w else s.imem.readSlot a)

/-- Rule R65: when an edit and a Fetch of the same slot fall on one edge, by command or by the sequencer, the Fetch gets the old
word and the slot holds the new one afterwards. -/
def Obligations.SameEdgeFetchReadsOldWord : Prop :=
  ∀ s : State, s.Fetches → s.nextInputs.quiet = true → s.nextInputs.memWe = true →
    s.pc.toNat = s.nextInputs.memWaddr.toNat →
    ∃ t, step s = .next t ∧ t.mbr = s.imem.readSlot s.nextInputs.memWaddr ∧
      t.imem.readSlot s.nextInputs.memWaddr = s.nextInputs.memWdata

/-- Rule R64: an edit does not reach back into a cycle in progress. MBR changes on an edge with a Fetch only and IR on one with a
Decode only; a cycle, by hand or by the sequencer and with any edits on any of its edges, runs the word that stood at PC when it
began, and a loop in flight at D, the word in MBR; an edit between a Fetch and an Execute by hand changes nothing of what the
Execute does; and the next Fetch of the edited slot, however many edges later, by hand or by the sequencer, gets the new word,
unless the slot has been edited again or power-on has reloaded the memory. -/
def Obligations.EditSeenAtNextFetchOnly : Prop :=
  (∀ s t : State, step s = .next t → s.nextInputs.quiet = true →
    (¬ s.Fetches → t.mbr = s.mbr) ∧ (¬ s.Decodes → t.ir = s.ir) ∧ (s.Decodes → t.ir = s.mbr)) ∧
  (∀ (s : State) (i j k : EdgeInputs) (rest : List EdgeInputs),
    s.pending = i :: j :: k :: rest → i.quiet = true → j.quiet = true → k.quiet = true → s.halted = false →
    (s.busy = false ∧ i.cmd = 1#3 ∧ j.cmd = 2#3 ∧ k.cmd = 3#3) ∨ (s.busy = true ∧ s.rcPos = .f ∧ s.cancel = false) →
    ∃ t u, exec (decodeWord (s.imem.fetchRead s.pc)) s = .next t ∧ s.run 3 = .next u ∧
      u.mbr = s.imem.fetchRead s.pc ∧ u.ir = s.imem.fetchRead s.pc ∧
      u.acc = t.acc ∧ u.pc = t.pc ∧ u.halted = t.halted) ∧
  (∀ (s : State) (j k : EdgeInputs) (rest : List EdgeInputs),
    s.pending = j :: k :: rest → j.quiet = true → k.quiet = true → s.busy = true → s.rcPos = .d → s.halted = false →
    ∃ t u, exec (decodeWord s.mbr) s = .next t ∧ s.run 2 = .next u ∧ u.mbr = s.mbr ∧ u.ir = s.mbr ∧
      u.acc = t.acc ∧ u.pc = t.pc ∧ u.halted = t.halted) ∧
  (∀ (s : State) (i j : EdgeInputs) (rest : List EdgeInputs),
    s.accepts = true → i.quiet = true → i.memWe = true → s.pending = i :: j :: rest → j.commandOnly = true →
    i.cmd = 0#3 → j.cmd = 3#3 → ∃ t u v, step s = .next t ∧ t.mbr = s.mbr ∧ t.ir = s.ir ∧
      exec (decodeWord s.mbr) { s with imem := t.imem, pending := rest } = .next u ∧
      s.run 2 = .next v ∧ v = u) ∧
  (∀ (n : Nat) (s : State) (i : EdgeInputs) (rest : List EdgeInputs),
    s.pending = i :: rest → i.por = false → i.memWe = true →
    (∀ j ∈ rest.take n, j.por = false ∧ (j.memWe = true → j.memWaddr ≠ i.memWaddr)) →
    ∃ t, s.run (n + 1) = .next t ∧ t.imem.readSlot i.memWaddr = i.memWdata ∧
      (t.Fetches → t.nextInputs.quiet = true → t.pc.toNat = i.memWaddr.toNat →
        ∃ u, step t = .next u ∧ u.mbr = i.memWdata))

/-- Two memories in canonical form whose 16 slots read the same are equal, so a state's memory says no more than the spec's 16
words. The canonical form is the model's choice (entry 1 of the assumption log). -/
def Obligations.CanonicalMemoriesAreTheirSlots : Prop :=
  ∀ m n : Memory, m.wf = true → n.wf = true → (∀ a, m.readSlot a = n.readSlot a) → m = n

/-! ### Power-on, reset, halting -/

/-- Rule R190: power-on, from any state and with anything else on the ports, puts every piece of state at its power-on value and
loads the image; `State.reset` is such a state. -/
def Obligations.PowerOnPutsEveryPowerOnValue : Prop :=
  State.PowerOnValues State.reset ∧
  ∀ s : State, s.nextInputs.por = true → ∃ t, step s = .next t ∧ State.PowerOnValues t ∧ t.pending = s.pending.tail

/-- Rule R191: the reset command, from every state and with any command beside it, puts the listed state at its reset values and
sets `cancel`; `busy` and `rc_pos` are unchanged, and so is the memory but for an edit on the same edge. -/
def Obligations.ResetCommandEffect : Prop :=
  ∀ s : State, s.nextInputs.por = false → s.nextInputs.rst = true →
    ∃ t, step s = .next t ∧
      t.pc = 0#16 ∧ t.acc = 0#16 ∧ t.ir = 0#16 ∧ t.mbr = 0#16 ∧ t.marV = false ∧ t.mar = 0#16 ∧
      t.hlV = false ∧ t.hlAddr = 0#16 ∧ t.stage = .idle ∧ t.halted = false ∧ t.running = false ∧ t.cancel = true ∧
      t.busy = s.busy ∧ t.rcPos = s.rcPos ∧ t.pending = s.pending.tail ∧
      (s.nextInputs.memWe = false → t.imem = s.imem) ∧
      (∀ a, s.nextInputs.memWe = true →
        t.imem.readSlot a = if a = s.nextInputs.memWaddr then s.nextInputs.memWdata else s.imem.readSlot a)

/-- Rule R192: reset always succeeds, wins over the sequencer and over any command on its edge, two resets in a row leave the
state of one, and but for power-on it is the only edge that clears `halted`. -/
def Obligations.ResetIsIdempotentAndAlwaysTaken : Prop :=
  (∀ (s : State) (r q : EdgeInputs) (rest : List EdgeInputs),
    r.por = false → r.rst = true → r.memWe = false → q.por = false → q.rst = true → q.memWe = false →
    step { s with pending := r :: rest } = .next (State.resetOp { s with pending := rest }) ∧
    State.run { s with pending := r :: q :: rest } 2 = step { s with pending := r :: rest }) ∧
  (∀ s t : State, step s = .next t → s.halted = true → t.halted = false →
    s.nextInputs.rst = true ∨ s.nextInputs.por = true)

/-- Rule R27: `halted` is set only by an Execute of HLT and cleared only by reset (or power-on), is 0 after both, and while it is
1 every host command is ignored. -/
def Obligations.HaltedSetByHltClearedByReset : Prop :=
  (∀ s t : State, step s = .next t → s.halted = false → t.halted = true →
    s.Executes ∧ s.nextInputs.quiet = true ∧ opField s.mbr = 5#3) ∧
  (∀ s t : State, step s = .next t → s.halted = true → t.halted = false → s.nextInputs.quiet = false) ∧
  (∀ s t : State, step s = .next t → s.nextInputs.quiet = false → t.halted = false) ∧
  (∀ (s : State) (i : EdgeInputs) (rest : List EdgeInputs) (c : BitVec 3), s.halted = true →
    step { s with pending := { i with cmd := c } :: rest } = step { s with pending := { i with cmd := 0#3 } :: rest })

/-- While halted, over any number of edges with any commands and edits but no reset and no power-on, every register and every
bit keeps its value, and the memory too when nothing is edited (60_exceptions.md section 6). -/
def Obligations.HaltedCoreKeepsItsState : Prop :=
  ∀ (k : Nat) (s : State), s.halted = true → s.busy = false → (∀ i ∈ s.pending, i.quiet = true) →
    ∃ t, s.run k = .next t ∧ { t with imem := s.imem, pending := s.pending } = s ∧
      t.pending = s.pending.drop k ∧ ((∀ i ∈ s.pending, i.memWe = false) → t.imem = s.imem)

/-! ### Invariants and whole-machine statements -/

/-- The invariants of the state hold at power-on. -/
def Obligations.PowerOnMeetsInv : Prop := State.reset.Inv

/-- Every step keeps the invariants of 10_state.md section 6 (an inference of the spec) and the memory's canonical form (the
model's choice, entry 1): MAR and HL_ADDR read 0 when unset, running implies busy, a drain is cancelled, a halted core is quiet,
`stage` is never execute. -/
def Obligations.StepKeepsInv : Prop :=
  ∀ s t : State, s.Inv → step s = .next t → t.Inv

/-- The staging invariants hold at power-on. -/
def Obligations.PowerOnMeetsStagingInv : Prop := State.reset.StagingInv

/-- Every step keeps what the fetched registers say about each other: MBR and IR hold 0x0000 while MAR is unset, MBR holds
`NOP_WORD` when MAR is above 15, the highlight is at MAR and at PC, and a staged HLT or JMP with an operand stands at a PC in
range. An inference of the spec (10_state.md section 1, the corner case of 43_control_ops.md section 2, 41_cycle_fsm.md section
2) strengthened by the model until every step keeps it. -/
def Obligations.StepKeepsStagingInv : Prop :=
  ∀ s t : State, s.StagingInv → step s = .next t → t.StagingInv

/-- Rule R170 (and "every malformed input degrades to a defined no-effect behavior"): the core raises no exception: every step
of every state, whatever word is executed and whatever stands on the ports, answers a next state. -/
def Obligations.NoStepStops : Prop :=
  ∀ s : State, ∃ t, step s = .next t

/-- The write matrix of 10_state.md section 8 (an inference of the spec), for an edge without reset and power-on: which event may
change which piece of state. -/
def Obligations.WriteMatrix : Prop :=
  ∀ s t : State, step s = .next t → s.nextInputs.quiet = true →
    (t.pc ≠ s.pc → s.Executes ∧ opField s.mbr ≠ 5#3) ∧
    (t.acc ≠ s.acc → s.Executes ∧ pField s.mbr = true ∧
      (opField s.mbr = 1#3 ∨ opField s.mbr = 2#3 ∨ opField s.mbr = 3#3)) ∧
    (t.ir ≠ s.ir → s.Decodes ∧ t.ir = s.mbr) ∧
    (t.marV ≠ s.marV → s.Fetches ∧ t.marV = true) ∧
    (t.mar ≠ s.mar → s.Fetches ∧ t.mar = s.pc) ∧
    (t.mbr ≠ s.mbr → s.Fetches) ∧
    (t.stage ≠ s.stage → s.Fetches ∨ s.Decodes ∨ s.Executes ∨ s.AcceptsRun) ∧
    (t.halted ≠ s.halted → s.Executes ∧ opField s.mbr = 5#3) ∧
    (t.hlV ≠ s.hlV → s.Fetches ∨ s.Executes) ∧
    (t.hlAddr ≠ s.hlAddr → s.Fetches ∨ s.Executes) ∧
    (t.running ≠ s.running → s.AcceptsRun ∨ (s.busy = true ∧ t.busy = false)) ∧
    (t.busy ≠ s.busy → s.AcceptsRun ∨ (s.busy = true ∧ t.running = false ∧ t.rcPos = .f)) ∧
    (t.cancel ≠ s.cancel → s.AcceptsRun) ∧
    (t.rcPos ≠ s.rcPos → s.AcceptsRun ∨ s.busy = true) ∧
    (t.imem ≠ s.imem → s.nextInputs.memWe = true)

/-- No instruction and no transition looks at `stage`, at the highlight or at IR: two states that differ in these alone go, over
any number of edges, to states that differ in these alone (10_state.md sections 1 and 2; 41_cycle_fsm.md section 1). -/
def Obligations.PresentationIsNeverRead : Prop :=
  ∀ (k : Nat) (s s' : State), s.withoutPresentation = s'.withoutPresentation →
    ∃ t t', s.run k = .next t ∧ s'.run k = .next t' ∧
      t.withoutPresentation = t'.withoutPresentation

/-- What the host can observe. The snapshot shows every register, every visible bit and the whole memory, and nothing of the
hidden sequencer state: two states that meet the invariants have the same snapshot exactly when they differ at most in `busy`,
`cancel`, `rc_pos` and the host's coming samples. The output ports show the same: each port by its field, the decoded view by the
fields of the word in IR, `mem_rdata` by the slot at `mem_raddr`; two states look alike on the ports, read address by read
address, exactly when their snapshots are equal. The register file by index is PC, IR, ACC, MAR (0 when unset), MBR; its five
entries are independent; no memory edit changes one and `reset` clears all (00_scope.md section 5; 10_state.md sections 1 to 3;
40_decoder.md section 2; 44_run_controller.md section 4). -/
def Obligations.SnapshotShowsAllButTheSequencer : Prop :=
  (∀ s t : State, s.Inv → t.Inv →
    (s.snapshot = t.snapshot ↔
      s = { t with busy := s.busy, cancel := s.cancel, rcPos := s.rcPos, pending := s.pending })) ∧
  (∀ (s : State) (a : SlotAddr),
    (s.outputs a).memRdata = s.imem.readSlot a ∧
    (s.outputs a).pc = s.pc ∧ (s.outputs a).ir = s.ir ∧ (s.outputs a).acc = s.acc ∧ (s.outputs a).mbr = s.mbr ∧
    (s.outputs a).marV = s.marV ∧ (s.outputs a).mar = (if s.marV then s.mar else 0#16) ∧
    (s.outputs a).hlV = s.hlV ∧ (s.outputs a).hlAddr = (if s.hlV then s.hlAddr else 0#16) ∧
    (s.outputs a).running = s.running ∧ (s.outputs a).halted = s.halted ∧
    (s.outputs a).stage =
      (match s.stage with
        | .idle => 0#2
        | .fetch => 1#2
        | .decode => 2#2
        | .execute => 3#2) ∧
    (s.outputs a).irOp.toNat = s.ir.toNat / 8192 ∧
    (s.outputs a).irP = decide (s.ir.toNat / 4096 % 2 = 1) ∧
    (s.outputs a).irImm.toNat = s.ir.toNat % 4096) ∧
  (∀ s t : State, (∀ a, s.outputs a = t.outputs a) ↔ s.snapshot = t.snapshot) ∧
  (∀ s : State, s.readReg 0 = s.pc ∧ s.readReg 1 = s.ir ∧ s.readReg 2 = s.acc ∧
    s.readReg 3 = (if s.marV then s.mar else 0#16) ∧ s.readReg 4 = s.mbr) ∧
  (∀ x : Fin 5 → Word, ∃ s : State, ∀ r, s.readReg r = x r) ∧
  (∀ (s : State) (a : SlotAddr) (w : Word) (r : Fin 5), (s.setMemory a w).readReg r = s.readReg r) ∧
  (∀ (s : State) (r : Fin 5), s.resetOp.readReg r = 0#16)

/-- A program's path does not depend on ACC: two states that differ in ACC alone go, over any number of edges, to states that
differ in ACC alone. An inference of the spec (43_control_ops.md section 2, "a program's path depends only on memory content, not
on ACC"). -/
def Obligations.PathIndependentOfAcc : Prop :=
  ∀ (k : Nat) (s s' : State), s.withoutAcc = s'.withoutAcc →
    ∃ t t', s.run k = .next t ∧ s'.run k = .next t' ∧ t.withoutAcc = t'.withoutAcc

/-- The datapath driven by the control signals of `DecodeWord(MBR)` does what Execute does, in every state and for every word. An
inference of the spec (40_decoder.md section 3, "They restate the operation table"). -/
def Obligations.DatapathComputesExecute : Prop :=
  ∀ s : State, s.executeStage = .next s.datapathExecute

/-- PC leaves [0, 15] only from 15 to 16, in an Execute of something other than HLT or a JMP with an operand, on every edge. An
inference of the spec (10_state.md section 6 (a); 41_cycle_fsm.md section 2). -/
def Obligations.PcLeavesRangeOnlyFromFifteen : Prop :=
  ∀ s t : State, step s = .next t → s.pc.toNat ≤ 15 → 15 < t.pc.toNat →
    s.pc = 15#16 ∧ t.pc = 16#16 ∧ s.Executes ∧ opField s.mbr ≠ 5#3 ∧ ¬ (opField s.mbr = 4#3 ∧ pField s.mbr = true)

/-- In a state that meets the staging invariants (every reachable one does), a PC out of range comes back into it by reset or
power-on only, or by the wrap of PC at 0xFFFF. An inference of the spec (41_cycle_fsm.md section 2, "with PC out of range no JMP
can be fetched, so in practice only `reset` does"). -/
def Obligations.PcOutOfRangeReturnsOnlyByReset : Prop :=
  ∀ s t : State, s.StagingInv → step s = .next t → 15 < s.pc.toNat → t.pc.toNat ≤ 15 →
    s.nextInputs.quiet = false ∨ (s.Executes ∧ s.pc = 0xFFFF#16 ∧ t.pc = 0#16)

/-! ### The assembler -/

/-- For every text that `Assemble` accepts, the decoder's record agrees with the source's text decoder: same class, an operand
exactly when the tag is MOV, ADD, SUB or JMP and the source's operand is present, and then the same operand. An inference of the
spec (40_decoder.md section 4). -/
def Obligations.AssembleAgreesWithSourceDecoder : Prop :=
  ∀ (text : Option Text) (w : Word), assemble text = .ok w →
    (decodeRecord w).cls = classOfTag (sourceDecode text).tag ∧
    ((decodeRecord w).hasOperand = true ↔
      (sourceDecode text).tag ∈ operandTags ∧ (sourceDecode text).operand.isSome = true) ∧
    ((decodeRecord w).hasOperand = true → (sourceDecode text).operand = some (decodeRecord w).operand)

/-- `Assemble` produces canonical words only, and every canonical word is produced: printing a canonical instruction and
assembling the text gives its word back (30_encoding.md part A on canonical words and part B on printing). -/
def Obligations.AssembleProducesExactlyCanonicalWords : Prop :=
  (∀ (text : Option Text) (w : Word), assemble text = .ok w → (decodeWord w).canonical = true) ∧
  (∀ i : Instr, i.canonical = true → assemble (some (instrText i)) = .ok (encode i))

/-- Rule R87: `Assemble` refuses exactly the texts of MOV, ADD, SUB and JMP whose literal is outside [-2048, 2047], by
`ImmediateOutOfRange`; the loader then writes nothing; every other text is accepted, a literal in range with its own value. -/
def Obligations.AssembleRefusesOutOfRangeLiterals : Prop :=
  ∀ text : Option Text,
    (∀ r, assemble text = .error r ↔ r = .immediateOutOfRange ∧ (sourceDecode text).tag ∈ operandTags ∧
      ∃ n, (sourceDecode text).operand = some n ∧ (n < -2048 ∨ 2047 < n)) ∧
    (∀ (s : State) (a : Int) (r : AsmRefusal), 0 ≤ a → a ≤ 15 → assemble text = .error r →
      s.setMemoryText a text = .error r) ∧
    (∀ n, (sourceDecode text).tag ∈ operandTags → (sourceDecode text).operand = some n → -2048 ≤ n → n ≤ 2047 →
      ∃ w, assemble text = .ok w ∧ (decodeRecord w).operand = n ∧ (decodeRecord w).hasOperand = true)

/-- Rule R81: the first token, with `a` to `z` replaced by `A` to `Z` and nothing else changed, selects the opcode by comparison
with the six mnemonics as a whole; a text and the same text in upper case assemble alike. -/
def Obligations.AssembleIgnoresCase : Prop :=
  (∀ text : Text, assemble (some (upperText text)) = assemble (some text)) ∧
  (∀ (text : Text) (w : Word), text ≠ [] → assemble (some text) = .ok w →
    opField w = opcodeOfTag (upperText (token0 text))) ∧
  (∀ c : Char, (97 ≤ c.toNat → c.toNat ≤ 122 → (upperChar c).toNat = c.toNat - 32) ∧
    (c.toNat < 97 ∨ 122 < c.toNat → upperChar c = c))

/-- Rule R82: a literal is an optional sign and one or more decimal digits, the whole token; its value is that decimal integer;
nothing else parses; and the operand of a text is that of its second token, absent when there is none. -/
def Obligations.LiteralsAreSignedDecimals : Prop :=
  (∀ ds : List (Fin 10), ds ≠ [] →
    parseInt (ds.map fun d => digitChar d.val) = some ((ds.foldl (fun n d => 10 * n + d.val) 0 : Nat) : Int) ∧
    parseInt ('+' :: ds.map fun d => digitChar d.val) = some ((ds.foldl (fun n d => 10 * n + d.val) 0 : Nat) : Int) ∧
    parseInt ('-' :: ds.map fun d => digitChar d.val) = some (-((ds.foldl (fun n d => 10 * n + d.val) 0 : Nat) : Int))) ∧
  (∀ (tok : Text) (n : Int), parseInt tok = some n →
    ∃ (sign : Text) (ds : List (Fin 10)), (sign = [] ∨ sign = ['+'] ∨ sign = ['-']) ∧ ds ≠ [] ∧
      tok = sign ++ ds.map fun d => digitChar d.val) ∧
  (∀ text : Text, token1 text = none → parseOperand text = none) ∧
  (∀ text tok : Text, token1 text = some tok → parseOperand text = parseInt tok)

/-- Tokenising (30_encoding.md part B): whitespace is 0x09 to 0x0D and 0x20; a text without whitespace is its only token; a piece
without whitespace, a run of whitespace and a second piece that ends the text or stands before more whitespace are the two
tokens, whatever follows. The first piece may be empty (a text that begins with whitespace) and so may a second piece that ends
the text (a text that ends with whitespace, or is whitespace only). -/
def Obligations.TokensAreCutAtWhitespaceRuns : Prop :=
  (∀ c : Char, isSpace c = true ↔ (9 ≤ c.toNat ∧ c.toNat ≤ 13) ∨ c.toNat = 32) ∧
  (∀ a ws b rest : Text, (∀ c ∈ a, isSpace c = false) → (∀ c ∈ b, isSpace c = false) → (∀ c ∈ ws, isSpace c = true) →
    ws ≠ [] → (b ≠ [] ∨ rest = []) → (∀ c ∈ rest.head?, isSpace c = true) →
    token0 (a ++ ws ++ b ++ rest) = a ∧ token1 (a ++ ws ++ b ++ rest) = some b) ∧
  (∀ a : Text, (∀ c ∈ a, isSpace c = false) → token0 a = a ∧ token1 a = none)

/-- The model's choice (entry 11 of the assumption log): when the address is outside [0, 15] and the text is one that `Assemble`
refuses as well, the loader reports the address. The spec gives both refusals and no order between them. -/
def Obligations.LoaderReportsTheAddressFirst : Prop :=
  ∀ (s : State) (address : Int) (text : Option Text) (r : AsmRefusal), (address < 0 ∨ 15 < address) →
    assemble text = .error r → s.setMemoryText address text = .error .outOfRange
end

