-- ==== Sys2Proof/Laws/PerInstr.lean ====
section
/-! SUPPORT. Statements made per instruction: the opcode number in the encoded word (rule R72). -/

namespace Sys2Proof.Laws

/-- Format `I` puts the opcode number at bits 15:13 (rule R71). -/
theorem opField_formatI (op : Opcode) (p : Bool) (imm : Imm) : opField (formatI op p imm) = op := by
  apply BitVec.eq_of_getLsbD_eq
  intro i hi
  have h1 : ¬ (13 + i < 12) := by omega
  have h2 : (13 + i - 12) ≠ 0 := by omega
  have h3 : 13 + i < 16 := by omega
  have h4 : ¬ (13 + i < 13) := by omega
  have h5 : imm.getLsbD (13 + i) = false := BitVec.getLsbD_of_ge imm (13 + i) (by omega)
  simp [opField, formatI, hi, h1, h2, h3, h4, h5]

/-- The word of an instruction holds the instruction's opcode number. -/
def OpcodeField.Statement (i : Instr) : Prop := opField (encode i) = i.opcode

theorem OpcodeField.nop (p : Bool) (imm : Imm) : OpcodeField.Statement (.nop p imm) := opField_formatI _ p imm
theorem OpcodeField.mov (p : Bool) (imm : Imm) : OpcodeField.Statement (.mov p imm) := opField_formatI _ p imm
theorem OpcodeField.add (p : Bool) (imm : Imm) : OpcodeField.Statement (.add p imm) := opField_formatI _ p imm
theorem OpcodeField.sub (p : Bool) (imm : Imm) : OpcodeField.Statement (.sub p imm) := opField_formatI _ p imm
theorem OpcodeField.jmp (p : Bool) (imm : Imm) : OpcodeField.Statement (.jmp p imm) := opField_formatI _ p imm
theorem OpcodeField.hlt (p : Bool) (imm : Imm) : OpcodeField.Statement (.hlt p imm) := opField_formatI _ p imm
theorem OpcodeField.rsv6 (p : Bool) (imm : Imm) : OpcodeField.Statement (.rsv6 p imm) := opField_formatI _ p imm
theorem OpcodeField.rsv7 (p : Bool) (imm : Imm) : OpcodeField.Statement (.rsv7 p imm) := opField_formatI _ p imm

end Sys2Proof.Laws
end

