-- ==== Sys2Proof/Laws/Assembler.lean ====
section
/-! SUPPORT. What the assembler's functions can do, once each: the pieces of a text, the word of a decoded text, decimal digits. -/

namespace Sys2Proof.Machine

/-! ### Pieces -/

theorem pieces_ne_nil (b : Bool) (t : Text) : pieces b t ≠ [] := by
  induction t generalizing b with
  | nil => simp [pieces]
  | cons c cs ih =>
    simp only [pieces]
    split
    · split
      · exact ih true
      · simp
    · unfold consToFirst
      split <;> simp

/-- Characters that are no whitespace stand at the front of the first piece. -/
theorem pieces_append_word (a t : Text) (ha : ∀ c ∈ a, isSpace c = false) :
    pieces false (a ++ t) = (a ++ (pieces false t).headD []) :: (pieces false t).tail := by
  induction a with
  | nil =>
    cases h : pieces false t with
    | nil => exact absurd h (pieces_ne_nil false t)
    | cons p ps => simp [h]
  | cons c cs ih =>
    have ih := ih (fun c hc => ha c (by simp [hc]))
    simp only [List.cons_append, pieces, ha c (by simp), Bool.false_eq_true, if_false, ih, consToFirst]

/-- Inside a run, further whitespace adds nothing. -/
theorem pieces_append_run (ws t : Text) (h : ∀ c ∈ ws, isSpace c = true) : pieces true (ws ++ t) = pieces true t := by
  induction ws with
  | nil => rfl
  | cons c cs ih =>
    simp only [List.cons_append, pieces, h c (by simp), if_true]
    exact ih (fun c hc => h c (by simp [hc]))

/-- Where no whitespace follows, the end of a run changes nothing. -/
theorem pieces_of_head (t : Text) (h : ∀ c ∈ t.head?, isSpace c = false) : pieces true t = pieces false t := by
  cases t with
  | nil => rfl
  | cons c cs => simp [pieces, h c (by simp)]

/-! ### The word of a decoded text -/

/-- The source's decoder on a text that is not empty. -/
theorem sourceDecode_of_ne_nil {t : Text} (h : t ≠ []) :
    sourceDecode (some t) = { tag := upperText (token0 t), operand := parseOperand t } := by
  cases t with
  | nil => exact absurd rfl h
  | cons => rfl

/-- Everything `assembleOperand` can accept. -/
theorem assembleOperand_ok {op : Opcode} {o : Option Int} {w : Word} (h : assembleOperand op o = .ok w) :
    (o = none ∧ w = formatI op false 0#12) ∨
    ∃ n, o = some n ∧ -2048 ≤ n ∧ n ≤ 2047 ∧ w = formatI op true (BitVec.ofInt 12 n) := by
  cases o with
  | none => simp [assembleOperand] at h; exact .inl ⟨rfl, h.symm⟩
  | some n =>
    simp only [assembleOperand] at h
    split at h
    · rename_i hr
      simp [operandInRange] at hr
      injection h with h
      exact .inr ⟨n, rfl, hr.1, hr.2, h.symm⟩
    · cases h

/-- Everything `assembleSource` can do, by the tag. -/
theorem assembleSource_cases (d : SourceInstr) :
    (d.tag = ['N', 'O', 'P'] ∧ assembleSource d = .ok (formatI 0#3 false 0#12)) ∨
    (d.tag = ['H', 'L', 'T'] ∧ assembleSource d = .ok (formatI 5#3 false 0#12)) ∨
    (d.tag = ['M', 'O', 'V'] ∧ assembleSource d = assembleOperand 1#3 d.operand) ∨
    (d.tag = ['A', 'D', 'D'] ∧ assembleSource d = assembleOperand 2#3 d.operand) ∨
    (d.tag = ['S', 'U', 'B'] ∧ assembleSource d = assembleOperand 3#3 d.operand) ∨
    (d.tag = ['J', 'M', 'P'] ∧ assembleSource d = assembleOperand 4#3 d.operand) ∨
    ((d.tag ∉ operandTags ∧ d.tag ≠ ['H', 'L', 'T'] ∧ d.tag ≠ ['N', 'O', 'P']) ∧
      assembleSource d = .ok (formatI 7#3 false 0#12)) := by
  unfold assembleSource operandTags
  by_cases h0 : d.tag = ['N', 'O', 'P']
  · simp [h0]
  by_cases h1 : d.tag = ['H', 'L', 'T']
  · simp [h1]
  by_cases h2 : d.tag = ['M', 'O', 'V']
  · simp [h2]
  by_cases h3 : d.tag = ['A', 'D', 'D']
  · simp [h3]
  by_cases h4 : d.tag = ['S', 'U', 'B']
  · simp [h4]
  by_cases h5 : d.tag = ['J', 'M', 'P']
  · simp [h5]
  simp [h0, h1, h2, h3, h4, h5]

/-! ### Decimal digits -/

theorem digitValue_digitChar {n : Nat} (h : n < 10) : digitValue (digitChar n) = some n := by
  have e : (digitChar n).toNat = 0x30 + n := by
    rw [digitChar, Char.toNat_ofNat, if_pos]
    left
    omega
  simp only [digitValue, e]
  rw [if_pos (by omega)]
  simp

/-- A digit is no whitespace and no sign. -/
theorem digitChar_plain : ∀ d, d < 10 → isSpace (digitChar d) = false ∧ digitChar d ≠ '+' ∧ digitChar d ≠ '-' := by
  intro d hd
  interval_cases d <;> decide

/-- One digit more. -/
theorem digitsFrom_append (n : Nat) (t : Text) (d : Nat) (hd : d < 10) {m : Nat} (h : digitsFrom n t = some m) :
    digitsFrom n (t ++ [digitChar d]) = some (10 * m + d) := by
  induction t generalizing n with
  | nil => simp [digitsFrom] at h; subst h; simp [digitsFrom, digitValue_digitChar hd]
  | cons c cs ih =>
    simp only [digitsFrom, List.cons_append] at h ⊢
    cases hv : digitValue c with
    | none => simp [hv] at h
    | some v => simp only [hv] at h ⊢; exact ih _ h

/-- The printed digits of a number are digits, at least one, and read back as the number. -/
theorem digitsFrom_decimalDigits (k n : Nat) (h : n < 10 ^ k) (hk : 0 < k) :
    digitsFrom 0 (decimalDigits k n) = some n ∧ decimalDigits k n ≠ [] ∧
    ∀ c ∈ decimalDigits k n, ∃ d, d < 10 ∧ c = digitChar d := by
  induction k generalizing n with
  | zero => omega
  | succ k ih =>
    simp only [decimalDigits]
    split
    · rename_i hn
      exact ⟨by simp [digitsFrom, digitValue_digitChar hn], by simp, fun c hc => ⟨n, hn, by simpa using hc⟩⟩
    · rename_i hn
      have hk' : 0 < k := by
        rcases Nat.eq_zero_or_pos k with rfl | h'
        · simp at h; omega
        · exact h'
      obtain ⟨i1, i2, i3⟩ := ih (n / 10) (by rw [pow_succ] at h; omega) hk'
      refine ⟨by rw [digitsFrom_append _ _ _ (by omega) i1]; congr 1; omega, by simp, fun c hc => ?_⟩
      simp only [List.mem_append, List.mem_singleton] at hc
      rcases hc with hc | hc
      · exact i3 c hc
      · exact ⟨n % 10, by omega, hc⟩

/-- A printed operand reads back as the operand, and holds no whitespace. -/
theorem parseInt_decimalInt (n : Int) (h1 : -2048 ≤ n) (h2 : n ≤ 2047) :
    parseInt (decimalInt n) = some n ∧ decimalInt n ≠ [] ∧ ∀ c ∈ decimalInt n, isSpace c = false := by
  obtain ⟨e1, e2, e3⟩ := digitsFrom_decimalDigits 4 n.natAbs (by omega) (by omega)
  have hpd : parseDigits (decimalDigits 4 n.natAbs) = some n.natAbs := by
    cases h : decimalDigits 4 n.natAbs with
    | nil => exact absurd h e2
    | cons c cs => rw [h] at e1; exact e1
  unfold decimalInt
  split
  · rename_i hneg
    refine ⟨by simp [parseInt, hpd]; rw [abs_of_neg hneg]; omega, by simp, fun c hc => ?_⟩
    rcases List.mem_cons.1 hc with rfl | hc
    · decide
    · obtain ⟨d, hd, rfl⟩ := e3 c hc
      exact (digitChar_plain d hd).1
  · refine ⟨?_, e2, fun c hc => ?_⟩
    · cases h : decimalDigits 4 n.natAbs with
      | nil => exact absurd h e2
      | cons c cs =>
        obtain ⟨d, hd, hc⟩ := e3 c (by simp [h])
        obtain ⟨_, f1, f2⟩ := digitChar_plain d hd
        rw [h] at hpd
        simp only [parseInt]
        rw [if_neg (hc ▸ f1), if_neg (hc ▸ f2), hpd]
        simp
        omega
    · obtain ⟨d, hd, rfl⟩ := e3 c hc
      exact (digitChar_plain d hd).1

end Sys2Proof.Machine
end

