-- ==== Sys2Proof/Laws/Encoding.lean ====
section
/-! SUPPORT. The decoder by opcode number: its match on the three bits of `op`, said once. -/

namespace Sys2Proof

/-- The opcode field is the word's bits 15, 14 and 13. -/
theorem opField_eq_bits (w : Word) :
    opField w = BitVec.ofBool (w.getLsbD 15) ++ BitVec.ofBool (w.getLsbD 14) ++ BitVec.ofBool (w.getLsbD 13) := by
  apply BitVec.eq_of_getLsbD_eq
  intro i hi
  interval_cases i <;> simp only [opField, BitVec.getLsbD_extractLsb'] <;>
    cases w.getLsbD 15 <;> cases w.getLsbD 14 <;> cases w.getLsbD 13 <;> rfl

/-- The eight opcode numbers. -/
theorem opField_cases (w : Word) :
    opField w = 0#3 ∨ opField w = 1#3 ∨ opField w = 2#3 ∨ opField w = 3#3 ∨
    opField w = 4#3 ∨ opField w = 5#3 ∨ opField w = 6#3 ∨ opField w = 7#3 := by
  rw [opField_eq_bits]
  cases w.getLsbD 15 <;> cases w.getLsbD 14 <;> cases w.getLsbD 13 <;> decide

/-- The instruction of a word, by its opcode number (rule R72). -/
theorem decodeWord_eq (w : Word) : decodeWord w =
    if opField w = 0#3 then .nop (pField w) (immField w)
    else if opField w = 1#3 then .mov (pField w) (immField w)
    else if opField w = 2#3 then .add (pField w) (immField w)
    else if opField w = 3#3 then .sub (pField w) (immField w)
    else if opField w = 4#3 then .jmp (pField w) (immField w)
    else if opField w = 5#3 then .hlt (pField w) (immField w)
    else if opField w = 6#3 then .rsv6 (pField w) (immField w)
    else .rsv7 (pField w) (immField w) := by
  rw [opField_eq_bits]
  unfold decodeWord
  cases w.getLsbD 15 <;> cases w.getLsbD 14 <;> cases w.getLsbD 13 <;> rfl

end Sys2Proof
end

