-- ==== Sys2Proof/Laws/Memory.lean ====
section
/-! SUPPORT. The memory's laws: what a write of a byte does to every byte, and that every memory operation keeps the canonical
form. -/

namespace Sys2Proof.Machine

@[simp] theorem Memory.readByte_nil (k : Nat) : Memory.readByte [] k = defaultByte k := rfl

theorem Memory.readByte_eraseCell (m : Memory) (k j : Nat) :
    (m.eraseCell k).readByte j = if j = k then defaultByte k else m.readByte j := by
  induction m with
  | nil => by_cases h : j = k <;> simp [Memory.eraseCell, h]
  | cons c rest ih =>
    obtain ⟨a, b⟩ := c
    by_cases ha : a = k
    · subst ha
      by_cases hj : j = a
      · subst hj; simpa [Memory.eraseCell] using ih
      · simp [Memory.eraseCell, ih, Memory.readByte, hj, Ne.symm hj]
    · by_cases hj : j = k
      · subst hj; simp [Memory.eraseCell, ha, Memory.readByte, ih]
      · simp [Memory.eraseCell, ha, Memory.readByte, ih, hj]

theorem Memory.readByte_insertCell (m : Memory) (k j : Nat) (v : Byte)
    (hk : ∀ c ∈ m, c.1 ≠ k) :
    (m.insertCell k v).readByte j = if j = k then v else m.readByte j := by
  induction m with
  | nil => simp [Memory.insertCell, Memory.readByte, eq_comm (a := k)]
  | cons c rest ih =>
    obtain ⟨a, b⟩ := c
    have ha : a ≠ k := hk (a, b) (by simp)
    have ih := ih (fun c hc => hk c (by simp [hc]))
    by_cases hlt : k < a
    · simp [Memory.insertCell, hlt, Memory.readByte, eq_comm (a := k)]
    · by_cases hj : j = k
      · subst hj; simp [Memory.insertCell, hlt, Memory.readByte, ih, ha]
      · simp [Memory.insertCell, hlt, Memory.readByte, ih, hj]

theorem Memory.eraseCell_ne (m : Memory) (k : Nat) : ∀ c ∈ m.eraseCell k, c.1 ≠ k := by
  induction m with
  | nil => simp [Memory.eraseCell]
  | cons c rest ih =>
    obtain ⟨a, b⟩ := c
    by_cases ha : a = k
    · simpa [Memory.eraseCell, ha] using ih
    · intro c hc
      simp only [Memory.eraseCell, if_neg ha, List.mem_cons] at hc
      obtain rfl | hc := hc
      · exact ha
      · exact ih c hc

/-- Writing a byte changes that byte and no other, in every memory, canonical or not. -/
theorem Memory.readByte_writeByte (m : Memory) (k j : Nat) (v : Byte) :
    (m.writeByte k v).readByte j = if j = k then v else m.readByte j := by
  unfold Memory.writeByte
  split
  · rename_i h; rw [Memory.readByte_eraseCell, h]
  · rw [Memory.readByte_insertCell _ _ _ _ (m.eraseCell_ne k), Memory.readByte_eraseCell]
    split <;> rfl

/-! ### The canonical form is kept -/

theorem Memory.risesFrom_mono {m : Memory} {lo lo' : Nat} (hle : lo' ≤ lo) (h : Memory.risesFrom lo m = true) :
    Memory.risesFrom lo' m = true := by
  cases m with
  | nil => rfl
  | cons c rest =>
    simp only [Memory.risesFrom, Bool.and_eq_true, decide_eq_true_eq] at h ⊢
    exact ⟨by omega, h.2⟩

theorem Memory.risesFrom_eraseCell {m : Memory} {lo : Nat} (k : Nat) (h : Memory.risesFrom lo m = true) :
    Memory.risesFrom lo (m.eraseCell k) = true := by
  induction m generalizing lo with
  | nil => rfl
  | cons c rest ih =>
    obtain ⟨a, b⟩ := c
    simp only [Memory.risesFrom, Bool.and_eq_true, decide_eq_true_eq] at h
    by_cases ha : a = k
    · simp only [Memory.eraseCell, if_pos ha]
      exact Memory.risesFrom_mono (by omega) (ih h.2)
    · simp only [Memory.eraseCell, if_neg ha, Memory.risesFrom, Bool.and_eq_true, decide_eq_true_eq]
      exact ⟨h.1, ih h.2⟩

theorem Memory.risesFrom_insertCell {m : Memory} {lo k : Nat} (v : Byte) (hlo : lo ≤ k) (hk : ∀ c ∈ m, c.1 ≠ k)
    (h : Memory.risesFrom lo m = true) : Memory.risesFrom lo (m.insertCell k v) = true := by
  induction m generalizing lo with
  | nil => simpa [Memory.insertCell, Memory.risesFrom] using hlo
  | cons c rest ih =>
    obtain ⟨a, b⟩ := c
    have ha : a ≠ k := hk (a, b) (by simp)
    simp only [Memory.risesFrom, Bool.and_eq_true, decide_eq_true_eq] at h
    by_cases hlt : k < a
    · simp only [Memory.insertCell, if_pos hlt, Memory.risesFrom, Bool.and_eq_true, decide_eq_true_eq]
      exact ⟨hlo, by omega, h.2⟩
    · simp only [Memory.insertCell, if_neg hlt, Memory.risesFrom, Bool.and_eq_true, decide_eq_true_eq]
      exact ⟨h.1, ih (by omega) (fun c hc => hk c (by simp [hc])) h.2⟩

theorem Memory.mem_eraseCell {m : Memory} {k : Nat} {c : Host.Cell} (h : c ∈ m.eraseCell k) : c ∈ m := by
  induction m with
  | nil => simp [Memory.eraseCell] at h
  | cons d rest ih =>
    obtain ⟨a, b⟩ := d
    by_cases ha : a = k
    · simp only [Memory.eraseCell, if_pos ha] at h; exact List.mem_cons_of_mem _ (ih h)
    · simp only [Memory.eraseCell, if_neg ha, List.mem_cons] at h
      obtain rfl | h := h
      · simp
      · exact List.mem_cons_of_mem _ (ih h)

theorem Memory.mem_insertCell {m : Memory} {k : Nat} {v : Byte} {c : Host.Cell} (h : c ∈ m.insertCell k v) :
    c = (k, v) ∨ c ∈ m := by
  induction m with
  | nil => simpa [Memory.insertCell] using h
  | cons d rest ih =>
    obtain ⟨a, b⟩ := d
    by_cases hlt : k < a
    · simpa [Memory.insertCell, hlt] using h
    · simp only [Memory.insertCell, if_neg hlt, List.mem_cons] at h
      obtain rfl | h := h
      · simp
      · obtain h | h := ih h
        · exact .inl h
        · exact .inr (List.mem_cons_of_mem _ h)

theorem Memory.wf_iff {m : Memory} :
    m.wf = true ↔ Memory.risesFrom 0 m = true ∧ ∀ c ∈ m, c.1 < cellCount ∧ c.2 ≠ defaultByte c.1 := by
  simp [Memory.wf, List.all_eq_true]

@[simp] theorem Memory.wf_nil : Memory.wf [] = true := rfl

/-- A byte write inside the 16 slots keeps the canonical form. -/
theorem Memory.wf_writeByte {m : Memory} {k : Nat} (v : Byte) (hk : k < cellCount) (h : m.wf = true) :
    (m.writeByte k v).wf = true := by
  rw [Memory.wf_iff] at h ⊢
  unfold Memory.writeByte
  split
  · exact ⟨Memory.risesFrom_eraseCell k h.1, fun c hc => h.2 c (Memory.mem_eraseCell hc)⟩
  · rename_i hv
    refine ⟨Memory.risesFrom_insertCell v (Nat.zero_le k) (m.eraseCell_ne k) (Memory.risesFrom_eraseCell k h.1), ?_⟩
    intro c hc
    obtain rfl | hc := Memory.mem_insertCell hc
    · exact ⟨hk, hv⟩
    · exact h.2 c (Memory.mem_eraseCell hc)

/-- A slot write keeps the canonical form. -/
theorem Memory.wf_writeSlot {m : Memory} (a : SlotAddr) (w : Word) (h : m.wf = true) : (m.writeSlot a w).wf = true := by
  have ha : a.toNat < 16 := a.isLt
  exact Memory.wf_writeByte _ (by simp only [cellCount, Config.nslot]; omega)
    (Memory.wf_writeByte _ (by simp only [cellCount, Config.nslot]; omega) h)

/-- Storing an image keeps the canonical form. -/
theorem Memory.wf_store {m : Memory} (a : Nat) (image : List Word) (h : m.wf = true) : (m.store a image).wf = true := by
  induction image generalizing m a with
  | nil => exact h
  | cons w rest ih => exact ih (a + 1) (Memory.wf_writeSlot _ w h)

theorem Memory.wf_ofImage (image : List Word) : (Memory.ofImage image).wf = true := Memory.wf_store 0 _ Memory.wf_nil

/-- The memory of `INIT_IMAGE` lists nothing. -/
@[simp] theorem Memory.ofImage_initImage : Memory.ofImage Config.initImage = [] := by decide

/-! ### Words and their two bytes -/

theorem wordOfBytes_bytes (w : Word) : wordOfBytes (highByte w) (lowByte w) = w := by
  apply BitVec.eq_of_toNat_eq
  simp only [wordOfBytes, highByte, lowByte, BitVec.toNat_append, BitVec.extractLsb'_toNat]
  have := w.isLt
  rw [Nat.shiftRight_zero, Nat.shiftLeft_eq, Nat.shiftRight_eq_div_pow, Nat.mul_comm, ← Nat.two_pow_add_eq_or_of_lt (by omega)]
  omega

/-- Writing a slot changes that slot and no other, in every memory, canonical or not. -/
theorem Memory.readSlot_writeSlot (m : Memory) (a b : SlotAddr) (w : Word) :
    (m.writeSlot a w).readSlot b = if b = a then w else m.readSlot b := by
  unfold Memory.writeSlot Memory.readSlot
  simp only [Memory.readByte_writeByte]
  by_cases h : b = a
  · subst h; simp [wordOfBytes_bytes]
  · have h' : b.toNat ≠ a.toNat := fun e => h (BitVec.eq_of_toNat_eq e)
    rw [if_neg (by omega), if_neg (by omega), if_neg (by omega), if_neg (by omega), if_neg h]

end Sys2Proof.Machine
end

