-- ==== Sys2Proof/Laws/State.lean ====
section
/-! SUPPORT. One lemma per field per update of the state, true by rfl, so that no proof unfolds a record update. -/

namespace Sys2Proof.Machine

/-! ### setHalted -/

@[simp] theorem State.setHalted_pc (s : State) : s.setHalted.pc = s.pc := rfl
@[simp] theorem State.setHalted_ir (s : State) : s.setHalted.ir = s.ir := rfl
@[simp] theorem State.setHalted_acc (s : State) : s.setHalted.acc = s.acc := rfl
@[simp] theorem State.setHalted_marV (s : State) : s.setHalted.marV = s.marV := rfl
@[simp] theorem State.setHalted_mar (s : State) : s.setHalted.mar = s.mar := rfl
@[simp] theorem State.setHalted_mbr (s : State) : s.setHalted.mbr = s.mbr := rfl
@[simp] theorem State.setHalted_stage (s : State) : s.setHalted.stage = s.stage := rfl
@[simp] theorem State.setHalted_halted (s : State) : s.setHalted.halted = true := rfl
@[simp] theorem State.setHalted_running (s : State) : s.setHalted.running = s.running := rfl
@[simp] theorem State.setHalted_hlV (s : State) : s.setHalted.hlV = s.hlV := rfl
@[simp] theorem State.setHalted_hlAddr (s : State) : s.setHalted.hlAddr = s.hlAddr := rfl
@[simp] theorem State.setHalted_busy (s : State) : s.setHalted.busy = s.busy := rfl
@[simp] theorem State.setHalted_cancel (s : State) : s.setHalted.cancel = s.cancel := rfl
@[simp] theorem State.setHalted_rcPos (s : State) : s.setHalted.rcPos = s.rcPos := rfl
@[simp] theorem State.setHalted_imem (s : State) : s.setHalted.imem = s.imem := rfl
@[simp] theorem State.setHalted_pending (s : State) : s.setHalted.pending = s.pending := rfl

/-! ### loopExit -/

@[simp] theorem State.loopExit_pc (s : State) : s.loopExit.pc = s.pc := rfl
@[simp] theorem State.loopExit_ir (s : State) : s.loopExit.ir = s.ir := rfl
@[simp] theorem State.loopExit_acc (s : State) : s.loopExit.acc = s.acc := rfl
@[simp] theorem State.loopExit_marV (s : State) : s.loopExit.marV = s.marV := rfl
@[simp] theorem State.loopExit_mar (s : State) : s.loopExit.mar = s.mar := rfl
@[simp] theorem State.loopExit_mbr (s : State) : s.loopExit.mbr = s.mbr := rfl
@[simp] theorem State.loopExit_stage (s : State) : s.loopExit.stage = s.stage := rfl
@[simp] theorem State.loopExit_halted (s : State) : s.loopExit.halted = s.halted := rfl
@[simp] theorem State.loopExit_running (s : State) : s.loopExit.running = false := rfl
@[simp] theorem State.loopExit_hlV (s : State) : s.loopExit.hlV = s.hlV := rfl
@[simp] theorem State.loopExit_hlAddr (s : State) : s.loopExit.hlAddr = s.hlAddr := rfl
@[simp] theorem State.loopExit_busy (s : State) : s.loopExit.busy = false := rfl
@[simp] theorem State.loopExit_cancel (s : State) : s.loopExit.cancel = s.cancel := rfl
@[simp] theorem State.loopExit_rcPos (s : State) : s.loopExit.rcPos = .f := rfl
@[simp] theorem State.loopExit_imem (s : State) : s.loopExit.imem = s.imem := rfl
@[simp] theorem State.loopExit_pending (s : State) : s.loopExit.pending = s.pending := rfl

/-! ### runAllAccept -/

@[simp] theorem State.runAllAccept_pc (s : State) : s.runAllAccept.pc = s.pc := rfl
@[simp] theorem State.runAllAccept_ir (s : State) : s.runAllAccept.ir = s.ir := rfl
@[simp] theorem State.runAllAccept_acc (s : State) : s.runAllAccept.acc = s.acc := rfl
@[simp] theorem State.runAllAccept_marV (s : State) : s.runAllAccept.marV = s.marV := rfl
@[simp] theorem State.runAllAccept_mar (s : State) : s.runAllAccept.mar = s.mar := rfl
@[simp] theorem State.runAllAccept_mbr (s : State) : s.runAllAccept.mbr = s.mbr := rfl
@[simp] theorem State.runAllAccept_stage (s : State) : s.runAllAccept.stage = .idle := rfl
@[simp] theorem State.runAllAccept_halted (s : State) : s.runAllAccept.halted = s.halted := rfl
@[simp] theorem State.runAllAccept_running (s : State) : s.runAllAccept.running = true := rfl
@[simp] theorem State.runAllAccept_hlV (s : State) : s.runAllAccept.hlV = s.hlV := rfl
@[simp] theorem State.runAllAccept_hlAddr (s : State) : s.runAllAccept.hlAddr = s.hlAddr := rfl
@[simp] theorem State.runAllAccept_busy (s : State) : s.runAllAccept.busy = true := rfl
@[simp] theorem State.runAllAccept_cancel (s : State) : s.runAllAccept.cancel = false := rfl
@[simp] theorem State.runAllAccept_rcPos (s : State) : s.runAllAccept.rcPos = .f := rfl
@[simp] theorem State.runAllAccept_imem (s : State) : s.runAllAccept.imem = s.imem := rfl
@[simp] theorem State.runAllAccept_pending (s : State) : s.runAllAccept.pending = s.pending := rfl

/-! ### withRcPos -/

@[simp] theorem State.withRcPos_pc (s : State) (r : RcPos) : (s.withRcPos r).pc = s.pc := rfl
@[simp] theorem State.withRcPos_ir (s : State) (r : RcPos) : (s.withRcPos r).ir = s.ir := rfl
@[simp] theorem State.withRcPos_acc (s : State) (r : RcPos) : (s.withRcPos r).acc = s.acc := rfl
@[simp] theorem State.withRcPos_marV (s : State) (r : RcPos) : (s.withRcPos r).marV = s.marV := rfl
@[simp] theorem State.withRcPos_mar (s : State) (r : RcPos) : (s.withRcPos r).mar = s.mar := rfl
@[simp] theorem State.withRcPos_mbr (s : State) (r : RcPos) : (s.withRcPos r).mbr = s.mbr := rfl
@[simp] theorem State.withRcPos_stage (s : State) (r : RcPos) : (s.withRcPos r).stage = s.stage := rfl
@[simp] theorem State.withRcPos_halted (s : State) (r : RcPos) : (s.withRcPos r).halted = s.halted := rfl
@[simp] theorem State.withRcPos_running (s : State) (r : RcPos) : (s.withRcPos r).running = s.running := rfl
@[simp] theorem State.withRcPos_hlV (s : State) (r : RcPos) : (s.withRcPos r).hlV = s.hlV := rfl
@[simp] theorem State.withRcPos_hlAddr (s : State) (r : RcPos) : (s.withRcPos r).hlAddr = s.hlAddr := rfl
@[simp] theorem State.withRcPos_busy (s : State) (r : RcPos) : (s.withRcPos r).busy = s.busy := rfl
@[simp] theorem State.withRcPos_cancel (s : State) (r : RcPos) : (s.withRcPos r).cancel = s.cancel := rfl
@[simp] theorem State.withRcPos_rcPos (s : State) (r : RcPos) : (s.withRcPos r).rcPos = r := rfl
@[simp] theorem State.withRcPos_imem (s : State) (r : RcPos) : (s.withRcPos r).imem = s.imem := rfl
@[simp] theorem State.withRcPos_pending (s : State) (r : RcPos) : (s.withRcPos r).pending = s.pending := rfl

/-! ### setMemory -/

@[simp] theorem State.setMemory_pc (s : State) (a : SlotAddr) (w : Word) : (s.setMemory a w).pc = s.pc := rfl
@[simp] theorem State.setMemory_ir (s : State) (a : SlotAddr) (w : Word) : (s.setMemory a w).ir = s.ir := rfl
@[simp] theorem State.setMemory_acc (s : State) (a : SlotAddr) (w : Word) : (s.setMemory a w).acc = s.acc := rfl
@[simp] theorem State.setMemory_marV (s : State) (a : SlotAddr) (w : Word) : (s.setMemory a w).marV = s.marV := rfl
@[simp] theorem State.setMemory_mar (s : State) (a : SlotAddr) (w : Word) : (s.setMemory a w).mar = s.mar := rfl
@[simp] theorem State.setMemory_mbr (s : State) (a : SlotAddr) (w : Word) : (s.setMemory a w).mbr = s.mbr := rfl
@[simp] theorem State.setMemory_stage (s : State) (a : SlotAddr) (w : Word) : (s.setMemory a w).stage = s.stage := rfl
@[simp] theorem State.setMemory_halted (s : State) (a : SlotAddr) (w : Word) : (s.setMemory a w).halted = s.halted := rfl
@[simp] theorem State.setMemory_running (s : State) (a : SlotAddr) (w : Word) : (s.setMemory a w).running = s.running := rfl
@[simp] theorem State.setMemory_hlV (s : State) (a : SlotAddr) (w : Word) : (s.setMemory a w).hlV = s.hlV := rfl
@[simp] theorem State.setMemory_hlAddr (s : State) (a : SlotAddr) (w : Word) : (s.setMemory a w).hlAddr = s.hlAddr := rfl
@[simp] theorem State.setMemory_busy (s : State) (a : SlotAddr) (w : Word) : (s.setMemory a w).busy = s.busy := rfl
@[simp] theorem State.setMemory_cancel (s : State) (a : SlotAddr) (w : Word) : (s.setMemory a w).cancel = s.cancel := rfl
@[simp] theorem State.setMemory_rcPos (s : State) (a : SlotAddr) (w : Word) : (s.setMemory a w).rcPos = s.rcPos := rfl
@[simp] theorem State.setMemory_imem (s : State) (a : SlotAddr) (w : Word) : (s.setMemory a w).imem = s.imem.writeSlot a w := rfl
@[simp] theorem State.setMemory_pending (s : State) (a : SlotAddr) (w : Word) : (s.setMemory a w).pending = s.pending := rfl

/-! ### fetchStage -/

@[simp] theorem State.fetchStage_pc (s : State) : s.fetchStage.pc = s.pc := rfl
@[simp] theorem State.fetchStage_ir (s : State) : s.fetchStage.ir = s.ir := rfl
@[simp] theorem State.fetchStage_acc (s : State) : s.fetchStage.acc = s.acc := rfl
@[simp] theorem State.fetchStage_marV (s : State) : s.fetchStage.marV = true := rfl
@[simp] theorem State.fetchStage_mar (s : State) : s.fetchStage.mar = s.pc := rfl
@[simp] theorem State.fetchStage_mbr (s : State) : s.fetchStage.mbr = s.imem.fetchRead s.pc := rfl
@[simp] theorem State.fetchStage_stage (s : State) : s.fetchStage.stage = .fetch := rfl
@[simp] theorem State.fetchStage_halted (s : State) : s.fetchStage.halted = s.halted := rfl
@[simp] theorem State.fetchStage_running (s : State) : s.fetchStage.running = s.running := rfl
@[simp] theorem State.fetchStage_hlV (s : State) : s.fetchStage.hlV = true := rfl
@[simp] theorem State.fetchStage_hlAddr (s : State) : s.fetchStage.hlAddr = s.pc := rfl
@[simp] theorem State.fetchStage_busy (s : State) : s.fetchStage.busy = s.busy := rfl
@[simp] theorem State.fetchStage_cancel (s : State) : s.fetchStage.cancel = s.cancel := rfl
@[simp] theorem State.fetchStage_rcPos (s : State) : s.fetchStage.rcPos = s.rcPos := rfl
@[simp] theorem State.fetchStage_imem (s : State) : s.fetchStage.imem = s.imem := rfl
@[simp] theorem State.fetchStage_pending (s : State) : s.fetchStage.pending = s.pending := rfl

/-! ### decodeStage -/

@[simp] theorem State.decodeStage_pc (s : State) : s.decodeStage.pc = s.pc := rfl
@[simp] theorem State.decodeStage_ir (s : State) : s.decodeStage.ir = s.mbr := rfl
@[simp] theorem State.decodeStage_acc (s : State) : s.decodeStage.acc = s.acc := rfl
@[simp] theorem State.decodeStage_marV (s : State) : s.decodeStage.marV = s.marV := rfl
@[simp] theorem State.decodeStage_mar (s : State) : s.decodeStage.mar = s.mar := rfl
@[simp] theorem State.decodeStage_mbr (s : State) : s.decodeStage.mbr = s.mbr := rfl
@[simp] theorem State.decodeStage_stage (s : State) : s.decodeStage.stage = .decode := rfl
@[simp] theorem State.decodeStage_halted (s : State) : s.decodeStage.halted = s.halted := rfl
@[simp] theorem State.decodeStage_running (s : State) : s.decodeStage.running = s.running := rfl
@[simp] theorem State.decodeStage_hlV (s : State) : s.decodeStage.hlV = s.hlV := rfl
@[simp] theorem State.decodeStage_hlAddr (s : State) : s.decodeStage.hlAddr = s.hlAddr := rfl
@[simp] theorem State.decodeStage_busy (s : State) : s.decodeStage.busy = s.busy := rfl
@[simp] theorem State.decodeStage_cancel (s : State) : s.decodeStage.cancel = s.cancel := rfl
@[simp] theorem State.decodeStage_rcPos (s : State) : s.decodeStage.rcPos = s.rcPos := rfl
@[simp] theorem State.decodeStage_imem (s : State) : s.decodeStage.imem = s.imem := rfl
@[simp] theorem State.decodeStage_pending (s : State) : s.decodeStage.pending = s.pending := rfl

/-! ### commitExecute -/

@[simp] theorem State.commitExecute_pc (s : State) (a p : Word) : (s.commitExecute a p).pc = p := rfl
@[simp] theorem State.commitExecute_ir (s : State) (a p : Word) : (s.commitExecute a p).ir = s.ir := rfl
@[simp] theorem State.commitExecute_acc (s : State) (a p : Word) : (s.commitExecute a p).acc = a := rfl
@[simp] theorem State.commitExecute_marV (s : State) (a p : Word) : (s.commitExecute a p).marV = s.marV := rfl
@[simp] theorem State.commitExecute_mar (s : State) (a p : Word) : (s.commitExecute a p).mar = s.mar := rfl
@[simp] theorem State.commitExecute_mbr (s : State) (a p : Word) : (s.commitExecute a p).mbr = s.mbr := rfl
@[simp] theorem State.commitExecute_stage (s : State) (a p : Word) : (s.commitExecute a p).stage = .idle := rfl
@[simp] theorem State.commitExecute_halted (s : State) (a p : Word) : (s.commitExecute a p).halted = s.halted := rfl
@[simp] theorem State.commitExecute_running (s : State) (a p : Word) : (s.commitExecute a p).running = s.running := rfl
@[simp] theorem State.commitExecute_hlV (s : State) (a p : Word) : (s.commitExecute a p).hlV = false := rfl
@[simp] theorem State.commitExecute_hlAddr (s : State) (a p : Word) : (s.commitExecute a p).hlAddr = 0x0000#16 := rfl
@[simp] theorem State.commitExecute_busy (s : State) (a p : Word) : (s.commitExecute a p).busy = s.busy := rfl
@[simp] theorem State.commitExecute_cancel (s : State) (a p : Word) : (s.commitExecute a p).cancel = s.cancel := rfl
@[simp] theorem State.commitExecute_rcPos (s : State) (a p : Word) : (s.commitExecute a p).rcPos = s.rcPos := rfl
@[simp] theorem State.commitExecute_imem (s : State) (a p : Word) : (s.commitExecute a p).imem = s.imem := rfl
@[simp] theorem State.commitExecute_pending (s : State) (a p : Word) : (s.commitExecute a p).pending = s.pending := rfl

/-! ### resetOp -/

@[simp] theorem State.resetOp_pc (s : State) : s.resetOp.pc = 0x0000#16 := rfl
@[simp] theorem State.resetOp_ir (s : State) : s.resetOp.ir = Config.nopWord := rfl
@[simp] theorem State.resetOp_acc (s : State) : s.resetOp.acc = 0x0000#16 := rfl
@[simp] theorem State.resetOp_marV (s : State) : s.resetOp.marV = false := rfl
@[simp] theorem State.resetOp_mar (s : State) : s.resetOp.mar = 0x0000#16 := rfl
@[simp] theorem State.resetOp_mbr (s : State) : s.resetOp.mbr = Config.nopWord := rfl
@[simp] theorem State.resetOp_stage (s : State) : s.resetOp.stage = .idle := rfl
@[simp] theorem State.resetOp_halted (s : State) : s.resetOp.halted = false := rfl
@[simp] theorem State.resetOp_running (s : State) : s.resetOp.running = false := rfl
@[simp] theorem State.resetOp_hlV (s : State) : s.resetOp.hlV = false := rfl
@[simp] theorem State.resetOp_hlAddr (s : State) : s.resetOp.hlAddr = 0x0000#16 := rfl
@[simp] theorem State.resetOp_busy (s : State) : s.resetOp.busy = s.busy := rfl
@[simp] theorem State.resetOp_cancel (s : State) : s.resetOp.cancel = true := rfl
@[simp] theorem State.resetOp_rcPos (s : State) : s.resetOp.rcPos = s.rcPos := rfl
@[simp] theorem State.resetOp_imem (s : State) : s.resetOp.imem = s.imem := rfl
@[simp] theorem State.resetOp_pending (s : State) : s.resetOp.pending = s.pending := rfl

/-! ### powerOnWith -/

@[simp] theorem State.powerOnWith_pc (image : List Word) (s : State) : (s.powerOnWith image).pc = State.reset.pc := rfl
@[simp] theorem State.powerOnWith_ir (image : List Word) (s : State) : (s.powerOnWith image).ir = State.reset.ir := rfl
@[simp] theorem State.powerOnWith_acc (image : List Word) (s : State) : (s.powerOnWith image).acc = State.reset.acc := rfl
@[simp] theorem State.powerOnWith_marV (image : List Word) (s : State) : (s.powerOnWith image).marV = State.reset.marV := rfl
@[simp] theorem State.powerOnWith_mar (image : List Word) (s : State) : (s.powerOnWith image).mar = State.reset.mar := rfl
@[simp] theorem State.powerOnWith_mbr (image : List Word) (s : State) : (s.powerOnWith image).mbr = State.reset.mbr := rfl
@[simp] theorem State.powerOnWith_stage (image : List Word) (s : State) : (s.powerOnWith image).stage = State.reset.stage := rfl
@[simp] theorem State.powerOnWith_halted (image : List Word) (s : State) : (s.powerOnWith image).halted = State.reset.halted := rfl
@[simp] theorem State.powerOnWith_running (image : List Word) (s : State) : (s.powerOnWith image).running = State.reset.running := rfl
@[simp] theorem State.powerOnWith_hlV (image : List Word) (s : State) : (s.powerOnWith image).hlV = State.reset.hlV := rfl
@[simp] theorem State.powerOnWith_hlAddr (image : List Word) (s : State) : (s.powerOnWith image).hlAddr = State.reset.hlAddr := rfl
@[simp] theorem State.powerOnWith_busy (image : List Word) (s : State) : (s.powerOnWith image).busy = State.reset.busy := rfl
@[simp] theorem State.powerOnWith_cancel (image : List Word) (s : State) : (s.powerOnWith image).cancel = State.reset.cancel := rfl
@[simp] theorem State.powerOnWith_rcPos (image : List Word) (s : State) : (s.powerOnWith image).rcPos = State.reset.rcPos := rfl
@[simp] theorem State.powerOnWith_imem (image : List Word) (s : State) : (s.powerOnWith image).imem = Memory.ofImage image := rfl
@[simp] theorem State.powerOnWith_pending (image : List Word) (s : State) : (s.powerOnWith image).pending = s.pending := rfl

/-! ### popped -/

@[simp] theorem State.popped_pc (s : State) : s.popped.pc = s.pc := rfl
@[simp] theorem State.popped_ir (s : State) : s.popped.ir = s.ir := rfl
@[simp] theorem State.popped_acc (s : State) : s.popped.acc = s.acc := rfl
@[simp] theorem State.popped_marV (s : State) : s.popped.marV = s.marV := rfl
@[simp] theorem State.popped_mar (s : State) : s.popped.mar = s.mar := rfl
@[simp] theorem State.popped_mbr (s : State) : s.popped.mbr = s.mbr := rfl
@[simp] theorem State.popped_stage (s : State) : s.popped.stage = s.stage := rfl
@[simp] theorem State.popped_halted (s : State) : s.popped.halted = s.halted := rfl
@[simp] theorem State.popped_running (s : State) : s.popped.running = s.running := rfl
@[simp] theorem State.popped_hlV (s : State) : s.popped.hlV = s.hlV := rfl
@[simp] theorem State.popped_hlAddr (s : State) : s.popped.hlAddr = s.hlAddr := rfl
@[simp] theorem State.popped_busy (s : State) : s.popped.busy = s.busy := rfl
@[simp] theorem State.popped_cancel (s : State) : s.popped.cancel = s.cancel := rfl
@[simp] theorem State.popped_rcPos (s : State) : s.popped.rcPos = s.rcPos := rfl
@[simp] theorem State.popped_imem (s : State) : s.popped.imem = s.imem := rfl
@[simp] theorem State.popped_pending (s : State) : s.popped.pending = s.pending.tail := rfl

/-! ### reset -/

@[simp] theorem State.reset_pc : State.reset.pc = 0x0000#16 := rfl
@[simp] theorem State.reset_ir : State.reset.ir = Config.nopWord := rfl
@[simp] theorem State.reset_acc : State.reset.acc = 0x0000#16 := rfl
@[simp] theorem State.reset_marV : State.reset.marV = false := rfl
@[simp] theorem State.reset_mar : State.reset.mar = 0x0000#16 := rfl
@[simp] theorem State.reset_mbr : State.reset.mbr = Config.nopWord := rfl
@[simp] theorem State.reset_stage : State.reset.stage = .idle := rfl
@[simp] theorem State.reset_halted : State.reset.halted = false := rfl
@[simp] theorem State.reset_running : State.reset.running = false := rfl
@[simp] theorem State.reset_hlV : State.reset.hlV = false := rfl
@[simp] theorem State.reset_hlAddr : State.reset.hlAddr = 0x0000#16 := rfl
@[simp] theorem State.reset_busy : State.reset.busy = false := rfl
@[simp] theorem State.reset_cancel : State.reset.cancel = false := rfl
@[simp] theorem State.reset_rcPos : State.reset.rcPos = .f := rfl
@[simp] theorem State.reset_imem : State.reset.imem = [] := rfl
@[simp] theorem State.reset_pending : State.reset.pending = [] := rfl

end Sys2Proof.Machine
end

