-- ==== Sys2Proof/Laws/Steps.lean ====
section
/-! SUPPORT. What the shared operations can do, once each: `exec`, the stages, the sequencer, the edge and the step. Proofs cite
these instead of unfolding the definitions. -/

namespace Sys2Proof.Machine

@[simp] theorem andThen_next (s : State) (f : State → Host.Outcome State Fault Refusal) : andThen (.next s) f = f s := rfl

/-- A sequence that answers a next state did so after its first part. -/
theorem andThen_eq_next {o : Host.Outcome State Fault Refusal} {f : State → Host.Outcome State Fault Refusal} {t : State}
    (h : andThen o f = .next t) : ∃ s, o = .next s ∧ f s = .next t := by
  cases o with
  | next s => exact ⟨s, rfl, h⟩
  | fault r => cases h
  | refused r => cases h

/-! ### exec -/

/-- Everything an instruction can do: Execute's commit with some ACC and PC, or HLT's. -/
theorem exec_cases (i : Instr) (s : State) :
    (∃ a p, exec i s = .next (s.commitExecute a p)) ∨
    ((∃ p imm, i = .hlt p imm) ∧ exec i s = .next (s.commitExecute s.acc s.pc).setHalted) := by
  cases i with
  | nop p imm => exact .inl ⟨_, _, rfl⟩
  | mov p imm => exact .inl ⟨_, _, rfl⟩
  | add p imm => exact .inl ⟨_, _, rfl⟩
  | sub p imm => exact .inl ⟨_, _, rfl⟩
  | jmp p imm => exact .inl ⟨_, _, rfl⟩
  | hlt p imm => exact .inr ⟨⟨p, imm, rfl⟩, rfl⟩
  | rsv6 p imm => exact .inl ⟨_, _, rfl⟩
  | rsv7 p imm => exact .inl ⟨_, _, rfl⟩

/-- nextACC of the word in MBR (rule R120), as a function of the word and ACC. -/
def wordAcc (w acc : Word) : Word :=
  if pField w = false then acc
  else if opField w = 1#3 then immValue (immField w)
  else if opField w = 2#3 then acc + immValue (immField w)
  else if opField w = 3#3 then acc - immValue (immField w)
  else acc

/-- nextPC of the word in MBR (rule R120), as a function of the word and PC. -/
def wordPc (w pc : Word) : Word :=
  if opField w = 5#3 then pc
  else if opField w = 4#3 ∧ pField w = true then jumpTarget (immField w)
  else pcInc pc

/-- The state after Execute of a word. -/
def wordResult (w : Word) (s : State) : State :=
  { s with
    acc := wordAcc w s.acc
    pc := wordPc w s.pc
    halted := s.halted || decide (opField w = 5#3)
    hlV := false
    hlAddr := 0x0000#16
    stage := .idle }

/-- What `exec` of a decoded word answers. -/
theorem exec_decodeWord (w : Word) (s : State) : exec (decodeWord w) s = .next (wordResult w s) := by
  rw [decodeWord_eq, wordResult, wordAcc, wordPc]
  rcases opField_cases w with h | h | h | h | h | h | h | h <;> cases hp : pField w <;>
    simp [h, exec, execNop, execMov, execAdd, execSub, execJmp, execHlt, execRsv6, execRsv7, nextAcc, operand?,
      jumpNextPc, alu, State.setHalted, State.commitExecute]

/-- What Execute answers (rule R119). -/
theorem executeStage_eq (s : State) : s.executeStage = .next (wordResult s.mbr s) := exec_decodeWord s.mbr s

@[simp] theorem wordResult_pc (w : Word) (s : State) : (wordResult w s).pc = wordPc w s.pc := rfl
@[simp] theorem wordResult_ir (w : Word) (s : State) : (wordResult w s).ir = s.ir := rfl
@[simp] theorem wordResult_acc (w : Word) (s : State) : (wordResult w s).acc = wordAcc w s.acc := rfl
@[simp] theorem wordResult_marV (w : Word) (s : State) : (wordResult w s).marV = s.marV := rfl
@[simp] theorem wordResult_mar (w : Word) (s : State) : (wordResult w s).mar = s.mar := rfl
@[simp] theorem wordResult_mbr (w : Word) (s : State) : (wordResult w s).mbr = s.mbr := rfl
@[simp] theorem wordResult_stage (w : Word) (s : State) : (wordResult w s).stage = .idle := rfl
@[simp] theorem wordResult_halted (w : Word) (s : State) : (wordResult w s).halted = (s.halted || decide (opField w = 5#3)) := rfl
@[simp] theorem wordResult_running (w : Word) (s : State) : (wordResult w s).running = s.running := rfl
@[simp] theorem wordResult_hlV (w : Word) (s : State) : (wordResult w s).hlV = false := rfl
@[simp] theorem wordResult_hlAddr (w : Word) (s : State) : (wordResult w s).hlAddr = 0x0000#16 := rfl
@[simp] theorem wordResult_busy (w : Word) (s : State) : (wordResult w s).busy = s.busy := rfl
@[simp] theorem wordResult_cancel (w : Word) (s : State) : (wordResult w s).cancel = s.cancel := rfl
@[simp] theorem wordResult_rcPos (w : Word) (s : State) : (wordResult w s).rcPos = s.rcPos := rfl
@[simp] theorem wordResult_imem (w : Word) (s : State) : (wordResult w s).imem = s.imem := rfl
@[simp] theorem wordResult_pending (w : Word) (s : State) : (wordResult w s).pending = s.pending := rfl

/-- The three ways of PC in Execute: held by HLT, clamped into range by a JMP with an operand, incremented by all others. -/
theorem wordPc_cases (w pc : Word) :
    (opField w = 5#3 ∧ wordPc w pc = pc) ∨
    (opField w = 4#3 ∧ pField w = true ∧ wordPc w pc = jumpTarget (immField w)) ∨
    (opField w ≠ 5#3 ∧ ¬ (opField w = 4#3 ∧ pField w = true) ∧ wordPc w pc = pcInc pc) := by
  unfold wordPc
  by_cases h5 : opField w = 5#3
  · simp [h5]
  · by_cases h4 : opField w = 4#3 ∧ pField w = true
    · rw [if_neg h5, if_pos h4]; exact .inr (.inl ⟨h4.1, h4.2, rfl⟩)
    · rw [if_neg h5, if_neg h4]; exact .inr (.inr ⟨h5, h4, rfl⟩)

/-- The sign-extended immediate is its signed value at 16 bits (rule R74). -/
theorem immValue_eq_ofInt (imm : Imm) : immValue imm = BitVec.ofInt 16 imm.toInt := by
  have h : (immValue imm).toInt = imm.toInt := by simp [immValue, BitVec.toInt_signExtend_of_le]
  rw [← h, BitVec.ofInt_toInt]

/-- The operation table on the record of a word (rule R120), by the two functions of the word. -/
theorem opTable_decodeRecord (w acc pc : Word) : opTable (decodeRecord w) acc pc = (wordAcc w acc, wordPc w pc) := by
  unfold wordAcc wordPc jumpTarget
  rw [immValue_eq_ofInt]
  have h8 := opField_cases w
  unfold decodeRecord
  generalize opField w = op at h8 ⊢
  cases pField w <;> rcases h8 with h | h | h | h | h | h | h | h <;> subst h <;>
    simp [opTable, classOf, OpClass.takesOperand, pcInc, Config.addrMax]

/-! ### Host commands and the edge -/

/-- The edge without power-on: its action, then the edit. -/
theorem edge_of_not_por {s : State} {i : EdgeInputs} (h : i.por = false) :
    s.edge i = andThen (s.edgeAction i) (fun t => .next (t.editPort i)) := by
  simp [State.edge, h]

/-- The edge of power-on. -/
theorem edge_of_por {s : State} {i : EdgeInputs} (h : i.por = true) : s.edge i = .next s.powerOn := by
  simp [State.edge, h]

/-- The action of a reset edge. -/
theorem edgeAction_of_rst {s : State} {i : EdgeInputs} (h : i.rst = true) : s.edgeAction i = .next s.resetOp := by
  simp [State.edgeAction, h]

/-- The action of an edge while a loop is in flight. -/
theorem edgeAction_of_busy {s : State} {i : EdgeInputs} (hr : i.rst = false) (hb : s.busy = true) :
    s.edgeAction i = s.seqStep := by
  simp [State.edgeAction, hr, hb]

/-- The action of an edge when no loop is in flight. -/
theorem edgeAction_of_free {s : State} {i : EdgeInputs} (hr : i.rst = false) (hb : s.busy = false) :
    s.edgeAction i = s.hostCommand (commandOf i.cmd) := by
  simp [State.edgeAction, hr, hb]

/-- A halted core ignores every host command (rule R116). -/
theorem hostCommand_of_halted {s : State} (h : s.halted = true) (c : Command) : s.hostCommand c = .next s := by
  cases c <;> simp [State.hostCommand, h]

/-- Everything a host command can do to a core with no loop in flight. -/
theorem hostCommand_cases {s t : State} {c : Command} (h : s.hostCommand c = .next t) :
    t = s ∨ (s.halted = false ∧
      ((c = .fetch ∧ t = s.fetchStage) ∨ (c = .decode ∧ t = s.decodeStage) ∨
       (c = .execute ∧ s.executeStage = .next t) ∨ (c = .run ∧ t = s.runAllAccept))) := by
  cases hh : s.halted with
  | true => rw [hostCommand_of_halted hh] at h; exact .inl (by injection h with h; exact h.symm)
  | false =>
    cases c with
    | none => simp [State.hostCommand] at h; exact .inl h.symm
    | fetch => simp [State.hostCommand, hh] at h; simp [← h]
    | decode => simp [State.hostCommand, hh] at h; simp [← h]
    | execute => simp [State.hostCommand, hh] at h; simp [h]
    | run => simp [State.hostCommand, hh] at h; simp [← h]

/-- The memory edit of an edge changes the memory and nothing else. -/
theorem editPort_eq (s : State) (i : EdgeInputs) : s.editPort i = { s with imem := (s.editPort i).imem } := by
  unfold State.editPort State.setMemory
  split <;> rfl

/-- The step takes the next sample and runs an edge on it. -/
theorem step_eq_edge (s : State) : step s = s.popped.edge s.nextInputs := by
  obtain ⟨pc, ir, acc, marV, mar, mbr, stage, halted, running, hlV, hlAddr, busy, cancel, rcPos, imem, pending⟩ := s
  cases pending <;> rfl

/-! ### The edit of an edge leaves every other field -/

@[simp] theorem State.editPort_pc (s : State) (i : EdgeInputs) : (s.editPort i).pc = s.pc := by rw [editPort_eq]
@[simp] theorem State.editPort_ir (s : State) (i : EdgeInputs) : (s.editPort i).ir = s.ir := by rw [editPort_eq]
@[simp] theorem State.editPort_acc (s : State) (i : EdgeInputs) : (s.editPort i).acc = s.acc := by rw [editPort_eq]
@[simp] theorem State.editPort_marV (s : State) (i : EdgeInputs) : (s.editPort i).marV = s.marV := by rw [editPort_eq]
@[simp] theorem State.editPort_mar (s : State) (i : EdgeInputs) : (s.editPort i).mar = s.mar := by rw [editPort_eq]
@[simp] theorem State.editPort_mbr (s : State) (i : EdgeInputs) : (s.editPort i).mbr = s.mbr := by rw [editPort_eq]
@[simp] theorem State.editPort_stage (s : State) (i : EdgeInputs) : (s.editPort i).stage = s.stage := by rw [editPort_eq]
@[simp] theorem State.editPort_halted (s : State) (i : EdgeInputs) : (s.editPort i).halted = s.halted := by rw [editPort_eq]
@[simp] theorem State.editPort_running (s : State) (i : EdgeInputs) : (s.editPort i).running = s.running := by rw [editPort_eq]
@[simp] theorem State.editPort_hlV (s : State) (i : EdgeInputs) : (s.editPort i).hlV = s.hlV := by rw [editPort_eq]
@[simp] theorem State.editPort_hlAddr (s : State) (i : EdgeInputs) : (s.editPort i).hlAddr = s.hlAddr := by rw [editPort_eq]
@[simp] theorem State.editPort_busy (s : State) (i : EdgeInputs) : (s.editPort i).busy = s.busy := by rw [editPort_eq]
@[simp] theorem State.editPort_cancel (s : State) (i : EdgeInputs) : (s.editPort i).cancel = s.cancel := by rw [editPort_eq]
@[simp] theorem State.editPort_rcPos (s : State) (i : EdgeInputs) : (s.editPort i).rcPos = s.rcPos := by rw [editPort_eq]
@[simp] theorem State.editPort_pending (s : State) (i : EdgeInputs) : (s.editPort i).pending = s.pending := by rw [editPort_eq]

/-- Without a strobe there is no edit. -/
theorem editPort_of_not_memWe {s : State} {i : EdgeInputs} (h : i.memWe = false) : s.editPort i = s := by
  simp [State.editPort, h]

/-! ### Input samples -/

theorem EdgeInputs.quiet_iff (i : EdgeInputs) : i.quiet = true ↔ i.por = false ∧ i.rst = false := by
  simp [EdgeInputs.quiet]

theorem EdgeInputs.commandOnly_iff (i : EdgeInputs) :
    i.commandOnly = true ↔ i.por = false ∧ i.rst = false ∧ i.memWe = false := by
  simp [EdgeInputs.commandOnly, and_assoc]

theorem EdgeInputs.quiet_of_commandOnly {i : EdgeInputs} (h : i.commandOnly = true) : i.quiet = true := by
  rw [EdgeInputs.commandOnly_iff] at h
  rw [EdgeInputs.quiet_iff]
  exact ⟨h.1, h.2.1⟩

theorem State.accepts_iff (s : State) : s.accepts = true ↔ s.halted = false ∧ s.busy = false := by
  simp [State.accepts]

theorem commandOf_iff (c : BitVec 3) :
    (commandOf c = .fetch ↔ c = 1#3) ∧ (commandOf c = .decode ↔ c = 2#3) ∧
    (commandOf c = .execute ↔ c = 3#3) ∧ (commandOf c = .run ↔ c = 4#3) := by
  revert c
  decide

/-! ### The step, by what stands on the ports -/

/-- The step of a power-on edge. -/
theorem step_of_por {s : State} (h : s.nextInputs.por = true) : step s = .next s.popped.powerOn := by
  rw [step_eq_edge, edge_of_por h]

/-- The step of a reset edge. -/
theorem step_of_rst {s : State} (h : s.nextInputs.por = false) (hr : s.nextInputs.rst = true) :
    step s = .next (s.popped.resetOp.editPort s.nextInputs) := by
  rw [step_eq_edge, edge_of_not_por h, edgeAction_of_rst hr]
  rfl

/-- The step of any other edge: the sequencer's step or the host's command, then the edit. -/
theorem step_of_quiet {s : State} (h : s.nextInputs.quiet = true) :
    step s = andThen (if s.busy = true then s.popped.seqStep else s.popped.hostCommand (commandOf s.nextInputs.cmd))
      (fun t => .next (t.editPort s.nextInputs)) := by
  rw [EdgeInputs.quiet_iff] at h
  rw [step_eq_edge, edge_of_not_por h.1]
  cases hb : s.busy
  · rw [edgeAction_of_free h.2 (by simpa using hb)]; rfl
  · rw [edgeAction_of_busy h.2 (by simpa using hb)]; rfl

/-- What follows an Execute of the sequencer, case by case (rule R153). -/
theorem afterExecute_cases (t : State) :
    (t.halted = true ∧ t.afterExecute = t.loopExit) ∨
    (t.halted = false ∧ 15 < t.pc.toNat ∧ t.afterExecute = t.loopExit) ∨
    (t.halted = false ∧ t.pc.toNat ≤ 15 ∧ t.afterExecute = t.withRcPos .f) := by
  unfold State.afterExecute
  cases h : t.halted
  · by_cases h2 : Config.addrMax < t.pc.toNat
    · exact .inr (.inl ⟨rfl, h2, by simp only [h2]; rfl⟩)
    · exact .inr (.inr ⟨rfl, by simpa [Config.addrMax] using h2, by simp only [h2]; simp⟩)
  · exact .inl ⟨rfl, rfl⟩

/-- Step F, case by case (rule R151). -/
theorem seqF_cases (s : State) :
    ((s.cancel = true ∨ s.halted = true) ∧ s.seqF = s.loopExit) ∨
    (s.cancel = false ∧ s.halted = false ∧ s.seqF = s.fetchStage.withRcPos .d) := by
  unfold State.seqF
  by_cases h : (s.cancel || s.halted) = true
  · rw [if_pos h]; simp at h; exact .inl ⟨h, rfl⟩
  · rw [if_neg h]; simp at h; exact .inr ⟨h.1, h.2, rfl⟩

/-- Step D, case by case (rule R152). -/
theorem seqD_cases (s : State) :
    (s.halted = true ∧ s.seqD = s.loopExit) ∨
    (s.halted = false ∧ s.seqD = s.decodeStage.withRcPos .x) := by
  unfold State.seqD
  by_cases h : s.halted = true
  · rw [if_pos h]; exact .inl ⟨h, rfl⟩
  · rw [if_neg h]; exact .inr ⟨by simpa using h, rfl⟩

/-- What the action of an edge without power-on and reset does to the state `s`: the state it gives, before the edit. One
constructor for each thing that can happen. -/
inductive QuietAction (s : State) : State → Prop where
  /-- No loop in flight and no command accepted. -/
  | nothing (hb : s.busy = false) (hn : s.halted = true ∨ commandOf s.nextInputs.cmd = .none) : QuietAction s s.popped
  /-- An accepted FETCH. -/
  | fetch (ha : s.accepts = true) (hc : s.nextInputs.cmd = 1#3) : QuietAction s s.popped.fetchStage
  /-- An accepted DECODE. -/
  | decode (ha : s.accepts = true) (hc : s.nextInputs.cmd = 2#3) : QuietAction s s.popped.decodeStage
  /-- An accepted EXECUTE. -/
  | execute (ha : s.accepts = true) (hc : s.nextInputs.cmd = 3#3) : QuietAction s (wordResult s.mbr s.popped)
  /-- An accepted RUN. -/
  | run (ha : s.accepts = true) (hc : s.nextInputs.cmd = 4#3) : QuietAction s s.popped.runAllAccept
  /-- Step F leaves the loop. -/
  | exitF (hb : s.busy = true) (hr : s.rcPos = .f) (hc : s.cancel = true ∨ s.halted = true) :
      QuietAction s s.popped.loopExit
  /-- Step F fetches. -/
  | stepF (hb : s.busy = true) (hr : s.rcPos = .f) (hc : s.cancel = false) (hh : s.halted = false) :
      QuietAction s (s.popped.fetchStage.withRcPos .d)
  /-- Step D leaves the loop. -/
  | exitD (hb : s.busy = true) (hr : s.rcPos = .d) (hh : s.halted = true) : QuietAction s s.popped.loopExit
  /-- Step D decodes. -/
  | stepD (hb : s.busy = true) (hr : s.rcPos = .d) (hh : s.halted = false) :
      QuietAction s (s.popped.decodeStage.withRcPos .x)
  /-- Step X leaves the loop without executing. -/
  | exitX (hb : s.busy = true) (hr : s.rcPos = .x) (hh : s.halted = true) : QuietAction s s.popped.loopExit
  /-- Step X executes and leaves the loop: HLT, or the runaway guard. -/
  | lastX (hb : s.busy = true) (hr : s.rcPos = .x) (hh : s.halted = false)
      (he : opField s.mbr = 5#3 ∨ 15 < (wordPc s.mbr s.pc).toNat) : QuietAction s (wordResult s.mbr s.popped).loopExit
  /-- Step X executes and goes on at F. -/
  | stepX (hb : s.busy = true) (hr : s.rcPos = .x) (hh : s.halted = false) (ho : opField s.mbr ≠ 5#3)
      (hp : (wordPc s.mbr s.pc).toNat ≤ 15) : QuietAction s ((wordResult s.mbr s.popped).withRcPos .f)

/-- Every edge without power-on and reset answers a next state, by one of the cases above and the edit. -/
theorem step_quiet_action {s : State} (h : s.nextInputs.quiet = true) :
    ∃ u, QuietAction s u ∧ step s = .next (u.editPort s.nextInputs) := by
  rw [step_of_quiet h]
  cases hb : s.busy
  · rw [if_neg (by simp)]
    cases hh : s.halted
    · have ha := s.accepts_iff.2 ⟨hh, hb⟩
      obtain ⟨c1, c2, c3, c4⟩ := commandOf_iff s.nextInputs.cmd
      cases hc : commandOf s.nextInputs.cmd
      · exact ⟨_, .nothing hb (.inr hc), rfl⟩
      · exact ⟨_, .fetch ha (c1.1 hc), by simp [State.hostCommand, hh]⟩
      · exact ⟨_, .decode ha (c2.1 hc), by simp [State.hostCommand, hh]⟩
      · exact ⟨_, .execute ha (c3.1 hc), by simp [State.hostCommand, hh, executeStage_eq]⟩
      · exact ⟨_, .run ha (c4.1 hc), by simp [State.hostCommand, hh]⟩
    · rw [hostCommand_of_halted (by simpa using hh)]
      exact ⟨_, .nothing hb (.inl hh), rfl⟩
  · rw [if_pos rfl]
    cases hr : s.rcPos
    · rw [State.seqStep, show s.popped.rcPos = .f from hr]
      rcases seqF_cases s.popped with ⟨hc, e⟩ | ⟨hc, hh, e⟩
      · exact ⟨_, .exitF hb hr hc, by simp only [e, andThen_next]⟩
      · exact ⟨_, .stepF hb hr hc hh, by simp only [e, andThen_next]⟩
    · rw [State.seqStep, show s.popped.rcPos = .d from hr]
      rcases seqD_cases s.popped with ⟨hh, e⟩ | ⟨hh, e⟩
      · exact ⟨_, .exitD hb hr hh, by simp only [e, andThen_next]⟩
      · exact ⟨_, .stepD hb hr hh, by simp only [e, andThen_next]⟩
    · rw [State.seqStep, show s.popped.rcPos = .x from hr]
      cases hh : s.halted
      · have hh' : s.popped.halted = false := hh
        simp only [State.seqX, hh', executeStage_eq, andThen_next]
        rcases afterExecute_cases (wordResult s.popped.mbr s.popped) with ⟨h1, e⟩ | ⟨_, h2, e⟩ | ⟨h1, h2, e⟩
        · exact ⟨_, .lastX hb hr hh (.inl (by simpa [hh] using h1)), by rw [e]; rfl⟩
        · exact ⟨_, .lastX hb hr hh (.inr h2), by rw [e]; rfl⟩
        · exact ⟨_, .stepX hb hr hh (by simpa [hh] using h1) h2, by rw [e]; rfl⟩
      · have hh' : s.popped.halted = true := hh
        exact ⟨_, .exitX hb hr hh, by simp only [State.seqX, hh', if_true, andThen_next]⟩

/-- Everything a step can do: power-on, reset and the edit, or a quiet action and the edit. -/
theorem step_cases {s t : State} (h : step s = .next t) :
    (s.nextInputs.por = true ∧ t = s.popped.powerOn) ∨
    (s.nextInputs.por = false ∧ s.nextInputs.rst = true ∧ t = s.popped.resetOp.editPort s.nextInputs) ∨
    (s.nextInputs.quiet = true ∧ ∃ u, QuietAction s u ∧ t = u.editPort s.nextInputs) := by
  cases hp : s.nextInputs.por
  · cases hr : s.nextInputs.rst
    · have hq : s.nextInputs.quiet = true := s.nextInputs.quiet_iff.2 ⟨hp, hr⟩
      obtain ⟨u, hu, e⟩ := step_quiet_action hq
      rw [e] at h
      injection h with h
      exact .inr (.inr ⟨hq, u, hu, h.symm⟩)
    · rw [step_of_rst hp hr] at h
      injection h with h
      exact .inr (.inl ⟨rfl, rfl, h.symm⟩)
  · rw [step_of_por hp] at h
    injection h with h
    exact .inl ⟨rfl, h.symm⟩

/-! ### What every edge does to the samples, and every edge without power-on to the memory -/

/-- No action of an edge changes the memory: only the edit does. -/
theorem QuietAction.imem_eq {s u : State} (h : QuietAction s u) : u.imem = s.imem := by
  cases h <;> rfl

/-- Every action of an edge takes one sample. -/
theorem QuietAction.pending_eq {s u : State} (h : QuietAction s u) : u.pending = s.pending.tail := by
  cases h <;> rfl

/-- Every step takes one sample. -/
theorem step_pending {s t : State} (h : step s = .next t) : t.pending = s.pending.tail := by
  rcases step_cases h with ⟨_, rfl⟩ | ⟨_, _, rfl⟩ | ⟨_, u, hu, rfl⟩
  · rfl
  · rw [State.editPort_pending]; rfl
  · rw [State.editPort_pending, hu.pending_eq]

/-- The memory after a step without power-on: the edit of its sample, or the memory as it was (rule R53). -/
theorem step_imem {s t : State} (h : step s = .next t) (hp : s.nextInputs.por = false) :
    t.imem = if s.nextInputs.memWe then s.imem.writeSlot s.nextInputs.memWaddr s.nextInputs.memWdata else s.imem := by
  have edit : ∀ u : State, u.imem = s.imem → (u.editPort s.nextInputs).imem =
      if s.nextInputs.memWe then s.imem.writeSlot s.nextInputs.memWaddr s.nextInputs.memWdata else s.imem := by
    intro u hu
    unfold State.editPort State.setMemory
    split <;> simp [hu]
  rcases step_cases h with ⟨hp', _⟩ | ⟨_, _, rfl⟩ | ⟨_, u, hu, rfl⟩
  · rw [hp] at hp'; cases hp'
  · exact edit _ rfl
  · exact edit _ hu.imem_eq

/-! ### Runs -/

@[simp] theorem State.run_zero (s : State) : s.run 0 = .next s := rfl

@[simp] theorem State.runEvents_zero (s : State) : s.runEvents 0 = [] := rfl

/-- The events of a run of one step more. -/
theorem State.runEvents_succ {s t : State} (k : Nat) (h : step s = .next t) :
    s.runEvents (k + 1) = s.popped.edgeEvents s.nextInputs ++ t.runEvents k := by
  rw [State.runEvents, h]

/-- A run of one step more. -/
theorem State.run_succ {s t : State} (k : Nat) (h : step s = .next t) : s.run (k + 1) = t.run k := by
  rw [State.run, h]
  rfl

end Sys2Proof.Machine
end

