-- ==== Sys2Proof/Tests/Slice0.lean ====
section
/-! SUPPORT. The model's own tests: the checks of WellFormed, one word per constructor, vectors of 95_test_vectors.md, one step
each, and for every statement with hypotheses a concrete input that meets them. Expected values are the spec's. -/

namespace Sys2Proof.Tests

open Sys2Proof Sys2Proof.Machine

/-! ### Helpers -/

/-- A core with no loop in flight. -/
def idleCore (pc acc mbr : Word) : State := { State.reset with pc := pc, acc := acc, mbr := mbr }

/-- The core with these samples to come. -/
def given (s : State) (samples : List EdgeInputs) : State := { s with pending := samples }

/-- A core with a loop in flight, at a stage. -/
def looping (s : State) (at' : RcPos) : State := { s with running := true, busy := true, rcPos := at' }

/-- A loop in flight with the idle port sample. -/
def loopAt (pc mbr : Word) (at' : RcPos) : State := given (looping (idleCore pc 7#16 mbr) at') [idleInputs]

def resetSample : EdgeInputs := { idleInputs with rst := true }
def powerSample : EdgeInputs := { idleInputs with por := true }
def editSample (cmd : BitVec 3) (a : SlotAddr) (w : Word) : EdgeInputs :=
  { idleInputs with cmd := cmd, memWe := true, memWaddr := a, memWdata := w }

/-- The state an outcome holds, or the power-on state when it stopped. -/
def landed (o : Host.Outcome State Fault Refusal) : State :=
  match o with
  | .next t => t
  | .fault _ => State.reset
  | .refused _ => State.reset

/-- ACC, PC and `halted` after Execute of a word from this ACC and PC. -/
def after (acc pc w : Word) : Word × Word × Bool :=
  let t := landed (exec (decodeWord w) (idleCore pc acc w))
  (t.acc, t.pc, t.halted)

/-- The word of a text, none when it is refused. -/
def wordOf (t : Text) : Option Word :=
  match assemble (some t) with
  | .ok w => some w
  | .error _ => none

/-! ### WellFormed: each check refuses an ill-formed term -/

theorem test_operand_low : operandInRange (-2049) = false ∧ operandInRange (-2048) = true := by decide
theorem test_operand_high : operandInRange 2048 = false ∧ operandInRange 2047 = true := by decide
theorem test_slot_low : slotInRange (-1) = false ∧ slotInRange 0 = true := by decide
theorem test_slot_high : slotInRange 16 = false ∧ slotInRange 15 = true := by decide
theorem test_canonical_nop : Instr.canonical (.nop true 0#12) = false ∧ Instr.canonical (.nop false 1#12) = false := by decide
theorem test_canonical_mov : Instr.canonical (.mov false 0xABC#12) = false ∧ Instr.canonical (.mov true 0xABC#12) = true := by
  decide
theorem test_canonical_add : Instr.canonical (.add false 1#12) = false := by decide
theorem test_canonical_sub : Instr.canonical (.sub false 1#12) = false := by decide
theorem test_canonical_jmp : Instr.canonical (.jmp false 1#12) = false := by decide
theorem test_canonical_hlt : Instr.canonical (.hlt true 0xFFF#12) = false ∧ Instr.canonical (.hlt false 0#12) = true := by decide
theorem test_canonical_rsv6 : Instr.canonical (.rsv6 false 0#12) = false := by decide
theorem test_canonical_rsv7 : Instr.canonical (.rsv7 true 0xFFF#12) = false := by decide

/-! ### Decode: words written out from the fields `op p imm` of rule R71, one for every row -/

theorem test_decode_nop : decodeWord 0b000_0_000100100011#16 = .nop false 0x123#12 := by decide
theorem test_decode_mov : decodeWord 0b001_1_000000000101#16 = .mov true 5#12 := by decide
theorem test_decode_add : decodeWord 0b010_1_000000000011#16 = .add true 3#12 := by decide
theorem test_decode_sub : decodeWord 0b011_1_000000000001#16 = .sub true 1#12 := by decide
theorem test_decode_jmp : decodeWord 0b100_1_111111111101#16 = .jmp true 0xFFD#12 := by decide
theorem test_decode_hlt : decodeWord 0b101_0_000000000000#16 = .hlt false 0#12 := by decide
theorem test_decode_rsv6 : decodeWord 0b110_0_000000000000#16 = .rsv6 false 0#12 := by decide
theorem test_decode_rsv7 : decodeWord 0b111_1_111111111111#16 = .rsv7 true 0xFFF#12 := by decide
/-- R71 and R74: the operand of 0x9FFD is -3, of 0x3800 is -2048 (V-D2f, V-D2p). -/
theorem test_operand_signed : (decodeRecord 0x9FFD#16).operand = -3 ∧ (decodeRecord 0x3800#16).operand = -2048 := by decide
/-- V-D2i, V-D2j: an HLT with `p` set has no operand, a MOV without `p` has none. -/
theorem test_has_operand : (decodeRecord 0xBFFF#16).hasOperand = false ∧ (decodeRecord 0x2ABC#16).hasOperand = false := by decide
theorem test_table_word : decodeTableWord 16 0x7001 = some (.sub true 1#12) := by decide
/-- A list shorter than a word is refused by name. -/
theorem test_truncated : (match decodeBytes [0x30#8] with | .error .truncated => true | .ok _ => false) = true := by decide

/-! ### Instructions: vectors V-D3 to V-D6 -/

theorem test_mov_negative : after 7#16 0#16 0x3800#16 = (0xF800#16, 1#16, false) := by decide
theorem test_mov_absent : after 0x1234#16 0#16 0x2ABC#16 = (0x1234#16, 1#16, false) := by decide
theorem test_add_wraps : after 0x7FFF#16 0#16 0x5001#16 = (0x8000#16, 1#16, false) := by decide
theorem test_add_negative : after 0x0064#16 0#16 0x5800#16 = (0xF864#16, 1#16, false) := by decide
theorem test_sub_wraps : after 0x8000#16 0#16 0x7001#16 = (0x7FFF#16, 1#16, false) := by decide
theorem test_sub_negative : after 0x7FFF#16 0#16 0x7800#16 = (0x87FF#16, 1#16, false) := by decide
theorem test_jmp_clamps : after 7#16 3#16 0x9010#16 = (7#16, 15#16, false) ∧ after 7#16 3#16 0x9800#16 = (7#16, 0#16, false) := by
  decide
theorem test_jmp_absent : after 7#16 15#16 0x8000#16 = (7#16, 16#16, false) := by decide
theorem test_hlt_holds_pc : after 7#16 9#16 0xBFFF#16 = (7#16, 9#16, true) := by decide
theorem test_nop_wraps_pc : after 7#16 0xFFFF#16 0x0000#16 = (7#16, 0#16, false) := by decide
theorem test_rsv6_is_nop : after 7#16 2#16 0xC000#16 = (7#16, 3#16, false) := by decide
theorem test_rsv7_is_nop : after 7#16 2#16 0xFFFF#16 = (7#16, 3#16, false) := by decide

/-! ### Stages, loop, memory: one edge each -/

/-- V-D10: a Fetch at 16 latches the full PC and gets `NOP_WORD`. -/
theorem test_fetch_out_of_range :
    (landed (step (given (idleCore 16#16 0#16 0x3005#16) [commandInputs 1#3]))).mar = 16#16 ∧
    (landed (step (given (idleCore 16#16 0#16 0x3005#16) [commandInputs 1#3]))).mbr = 0#16 := by decide
/-- V-S7, the row Fetch 1. -/
theorem test_first_fetch : (landed (step (given State.reset [commandInputs 1#3]))).mbr = 0x3005#16 := by decide
/-- V-D16: codes 5, 6, 7 are NONE. -/
theorem test_unused_codes :
    landed (step (given (idleCore 1#16 2#16 3#16) [commandInputs 5#3])) = idleCore 1#16 2#16 3#16 ∧
    landed (step (given (idleCore 1#16 2#16 3#16) [commandInputs 7#3])) = idleCore 1#16 2#16 3#16 := by decide
/-- V-D20, edge 2: a reset in flight leaves `busy` and `rc_pos`, sets `cancel`. -/
theorem test_reset_in_flight :
    landed (step (given (loopAt 0#16 0x3005#16 .d) [resetSample])) =
      { State.reset with busy := true, cancel := true, rcPos := .d } := by decide
/-- V-D18: a Fetch and an edit of the same slot on one edge. -/
theorem test_fetch_and_edit :
    (landed (step (given (idleCore 1#16 5#16 0#16) [editSample 1#3 1#4 0x5064#16]))).mbr = 0x5003#16 ∧
    (landed (step (given (idleCore 1#16 5#16 0#16) [editSample 1#3 1#4 0x5064#16]))).imem.readSlot 1#4 = 0x5064#16 := by decide
/-- Writing back the word of the image leaves nothing listed. -/
theorem test_canonical_write : Memory.writeSlot (Memory.writeSlot [] 15#4 0xA5A5#16) 15#4 0#16 = [] := by decide
/-- The instruction that the host's placement asks for is the one the next step runs. -/
theorem test_placed_word : (landed (step (State.withFetchWord State.reset 16 0x3005))).acc = 5#16 := by decide
/-- The placement works from a halted core with a loop in flight as well. -/
theorem test_placed_word_in_flight :
    (landed (step (State.withFetchWord { loopAt 3#16 0#16 .f with halted := true } 16 0x7001))).acc = 6#16 := by decide
/-- R20: the register file by index, MAR reading 0 when unset (R24). -/
theorem test_register_file : State.readReg { idleCore 3#16 9#16 4#16 with mar := 5#16 } 3 = 0#16 ∧
    State.readReg (idleCore 3#16 9#16 4#16) 0 = 3#16 := by decide
/-- R102 (a): the view of IR on the output ports. -/
theorem test_view_of_ir : (State.outputs { State.reset with ir := 0x9FFD#16 } 4#4).irImm = 0xFFD#12 ∧
    (State.outputs { State.reset with ir := 0x9FFD#16 } 4#4).memRdata = 0xA000#16 := by decide

/-! ### The assembler: vectors V-D1 -/

/-- `MOV 5`, `mov 5`, `MOV<tab>5`, `MOV 5 9` (V-D1d). -/
theorem test_assemble_mov :
    wordOf ['M', 'O', 'V', ' ', '5'] = some 0x3005#16 ∧ wordOf ['m', 'o', 'v', ' ', '5'] = some 0x3005#16 ∧
    wordOf ['M', 'O', 'V', '\t', '5'] = some 0x3005#16 ∧ wordOf ['M', 'O', 'V', ' ', '5', ' ', '9'] = some 0x3005#16 := by decide
/-- `MOV 1.5`, `MOV ` and `MOV x` have no operand (V-D1f). -/
theorem test_assemble_bad_literal :
    wordOf ['M', 'O', 'V', ' ', '1', '.', '5'] = some 0x2000#16 ∧ wordOf ['M', 'O', 'V', ' '] = some 0x2000#16 ∧
    wordOf ['M', 'O', 'V', ' ', 'x'] = some 0x2000#16 := by decide
/-- `JMP -3`, `SUB -2048`, `HLT 3`, a leading space, `   ` (V-D1j to V-D1m). -/
theorem test_assemble_others :
    wordOf ['J', 'M', 'P', ' ', '-', '3'] = some 0x9FFD#16 ∧
    wordOf ['S', 'U', 'B', ' ', '-', '2', '0', '4', '8'] = some 0x7800#16 ∧
    wordOf ['H', 'L', 'T', ' ', '3'] = some 0xA000#16 ∧ wordOf [' ', 'M', 'O', 'V', ' ', '5'] = some 0xE000#16 ∧
    wordOf [' ', ' ', ' '] = some 0xE000#16 := by decide
/-- `MOV 2048` is refused (V-D1n). -/
theorem test_assemble_refuses : wordOf ['M', 'O', 'V', ' ', '2', '0', '4', '8'] = none := by decide
/-- R86: `JMP -3` printed. -/
theorem test_print : instrText (.jmp true 0xFFD#12) = ['J', 'M', 'P', ' ', '-', '3'] := by decide
/-- R56: a word as an image shows it. -/
theorem test_hex_word : hexWord 0x9FFD#16 = ['9', 'F', 'F', 'D'] := by decide

/-! ### Witnesses: for every statement with hypotheses, inputs that meet them, clause by clause -/

/-- The operand forms of MOV, ADD and SUB, both values of `p` (MovLoadsOperand, AddAddsOperand, SubSubtractsOperand). -/
theorem witness_operand_forms :
    decodeWord 0x3800#16 = .mov true 0x800#12 ∧ decodeWord 0x2000#16 = .mov false 0#12 ∧
    decodeWord 0x57FF#16 = .add true 0x7FF#12 ∧ decodeWord 0x4000#16 = .add false 0#12 ∧
    decodeWord 0x7800#16 = .sub true 0x800#12 ∧ decodeWord 0x6000#16 = .sub false 0#12 := by decide

/-- Both forms of JMP, at the ends of the clamp's three ranges (JmpGoesToClampedOperand, ClampInHardwareTerms). -/
theorem witness_jump_forms :
    decodeWord 0x9FFF#16 = .jmp true 0xFFF#12 ∧ decodeWord 0x9000#16 = .jmp true 0#12 ∧
    decodeWord 0x900F#16 = .jmp true 15#12 ∧ decodeWord 0x9010#16 = .jmp true 16#12 ∧
    decodeWord 0x8000#16 = .jmp false 0#12 := by decide

/-- HltHaltsTheCore: MAR at PC; a halted core with an edit on its port, a reset on it, and an HLT about to run in the loop. -/
theorem witness_halt :
    (idleCore 15#16 0#16 0xA000#16).fetchStage.mar = (idleCore 15#16 0#16 0xA000#16).fetchStage.pc ∧
    (let s := given { idleCore 15#16 7#16 0xA000#16 with halted := true } [editSample 4#3 15#4 1#16]
     s.halted = true ∧ s.busy = false ∧ s.nextInputs.quiet = true ∧ s.nextInputs.memWe = true) ∧
    (let s := given { idleCore 4#16 7#16 0xA000#16 with halted := true } [resetSample]
     s.nextInputs.por = false ∧ s.nextInputs.rst = true) ∧
    (let s := loopAt 4#16 0xBFFF#16 .x
     s.busy = true ∧ s.rcPos = .x ∧ s.halted = false ∧ s.nextInputs.quiet = true ∧ opField s.mbr = 5#3) := by decide

/-- Rsv6ActsAsNop, AssembleAgreesWithSourceDecoder, AssembleProducesExactlyCanonicalWords: texts that assemble, and a canonical
instruction. -/
theorem witness_assembled :
    assemble (some ['A', 'D', 'D', ' ', '-', '1']) = .ok 0x5FFF#16 ∧ assemble none = .ok 0#16 ∧
    Instr.canonical (.sub true 0x800#12) = true := ⟨rfl, rfl, rfl⟩

/-- AssembleAgreesWithSourceDecoder: an accepted text whose record has an operand, and one whose record has none. -/
theorem witness_record_operand :
    (decodeRecord 0x5FFF#16).hasOperand = true ∧ (decodeRecord 0x0000#16).hasOperand = false := by decide

/-- Rsv7ActsAsNop: a text that begins with whitespace. -/
theorem witness_unknown_mnemonic :
    [' ', 'H', 'L', 'T'] ≠ [] ∧ upperText (token0 [' ', 'H', 'L', 'T']) ∉ operandTags ∧
    upperText (token0 [' ', 'H', 'L', 'T']) ≠ ['H', 'L', 'T'] ∧
    upperText (token0 [' ', 'H', 'L', 'T']) ≠ ['N', 'O', 'P'] := by decide

/-- MissingOperandOnlyAdvancesPc: no second token, and one that does not parse, for the three mnemonics. -/
theorem witness_missing_operand :
    (upperText (token0 ['m', 'o', 'v']) = ['M', 'O', 'V'] ∧ token1 ['m', 'o', 'v'] = none) ∧
    (upperText (token0 ['A', 'D', 'D', ' ', '+']) = ['A', 'D', 'D'] ∧ token1 ['A', 'D', 'D', ' ', '+'] = some ['+'] ∧
      parseInt ['+'] = none) ∧
    (upperText (token0 ['S', 'U', 'B', ' ']) = ['S', 'U', 'B'] ∧ token1 ['S', 'U', 'B', ' '] = some [] ∧
      parseInt [] = none) := by decide

/-- FetchCommandEffect at 15 and 16. -/
theorem witness_fetch :
    (let s := given (idleCore 15#16 0#16 1#16) [commandInputs 1#3]; s.accepts = true ∧ s.asks 1#3 ∧ s.pc.toNat ≤ 15) ∧
    (let s := given (idleCore 16#16 0#16 1#16) [commandInputs 1#3]; s.accepts = true ∧ s.asks 1#3 ∧ ¬ s.pc.toNat ≤ 15) :=
  ⟨⟨rfl, ⟨rfl, rfl⟩, by decide⟩, ⟨rfl, ⟨rfl, rfl⟩, by decide⟩⟩

/-- DecodeCommandEffect. -/
theorem witness_decode :
    (given (idleCore 1#16 2#16 0x5003#16) [commandInputs 2#3]).accepts = true ∧
    (given (idleCore 1#16 2#16 0x5003#16) [commandInputs 2#3]).asks 2#3 := ⟨rfl, rfl, rfl⟩

/-- RunCommandEffect: accepted with PC out of range; and not accepted, halted or in flight. -/
theorem witness_run :
    (let s := given (idleCore 0xFFFF#16 0#16 0#16) [commandInputs 4#3]; s.halted = false ∧ s.busy = false ∧ s.asks 4#3) ∧
    ({ idleCore 4#16 7#16 0xA000#16 with halted := true } : State).halted = true ∧ (loopAt 0#16 0#16 .f).busy = true :=
  ⟨⟨rfl, rfl, rfl, rfl⟩, rfl, rfl⟩

/-- StepRunsDecodedInstruction: by command, with an edit beside it, and by the sequencer. -/
theorem witness_step_runs :
    (let s := given (idleCore 15#16 7#16 0x9010#16) [editSample 3#3 15#4 1#16]
     s.accepts = true ∧ s.nextInputs.cmd = 3#3 ∧ s.nextInputs.quiet = true) ∧
    (let s := loopAt 15#16 0x0000#16 .x
     s.busy = true ∧ s.rcPos = .x ∧ s.halted = false ∧ s.nextInputs.quiet = true) := by decide

/-- CycleRunsInstructionAtPc: by hand at slot 15, by the sequencer at slot 0. -/
theorem witness_cycle :
    (let s := given (idleCore 15#16 7#16 0xFFFF#16) [commandInputs 1#3, commandInputs 2#3, commandInputs 3#3]
     s.pending = commandInputs 1#3 :: commandInputs 2#3 :: commandInputs 3#3 :: [] ∧
     (commandInputs 1#3).commandOnly = true ∧ (commandInputs 2#3).commandOnly = true ∧
     (commandInputs 3#3).commandOnly = true ∧ s.halted = false ∧ s.busy = false) ∧
    (let s := given (looping (idleCore 0#16 7#16 0xFFFF#16) .f) [idleInputs, idleInputs, idleInputs]
     s.pending = idleInputs :: idleInputs :: idleInputs :: [] ∧ idleInputs.commandOnly = true ∧ s.halted = false ∧
     s.busy = true ∧ s.rcPos = .f ∧ s.cancel = false) := by decide

/-- GatedCommandsAreDropped: in flight; halted; and accepted, for each of the three commands. -/
theorem witness_gated :
    (loopAt 0#16 0#16 .d).accepts = false ∧
    (let s : State := { idleCore 4#16 7#16 0xA000#16 with halted := true }
     s.accepts = false ∧ s.halted = true ∧ s.busy = false ∧ (commandInputs 3#3).commandOnly = true) ∧
    (∀ c : BitVec 3, (given State.reset [commandInputs c]).accepts = true ∧ (given State.reset [commandInputs c]).asks c) :=
  ⟨rfl, ⟨rfl, rfl, rfl, rfl⟩, fun _ => ⟨rfl, rfl, rfl⟩⟩

/-- SequencerStepF, and the last clause of GatedCommandsAreDropped: not cancelled, cancelled, halted. -/
theorem witness_step_f :
    (let s := loopAt 16#16 0#16 .f
     s.busy = true ∧ s.rcPos = .f ∧ s.nextInputs.commandOnly = true ∧ s.cancel = false ∧ s.halted = false) ∧
    (let s : State := { loopAt 0#16 0#16 .f with cancel := true }
     s.busy = true ∧ s.rcPos = .f ∧ s.nextInputs.commandOnly = true ∧ s.cancel = true) ∧
    (let s : State := { loopAt 0#16 0#16 .f with halted := true }
     s.busy = true ∧ s.rcPos = .f ∧ s.nextInputs.commandOnly = true ∧ s.halted = true) := by decide

/-- SequencerStepD, and the last clause of GatedCommandsAreDropped: not halted (although cancelled), and halted. -/
theorem witness_step_d :
    (let s : State := { loopAt 0#16 0x3005#16 .d with cancel := true }
     s.busy = true ∧ s.rcPos = .d ∧ s.nextInputs.commandOnly = true ∧ s.halted = false) ∧
    (let s : State := { loopAt 0#16 0x3005#16 .d with halted := true }
     s.busy = true ∧ s.rcPos = .d ∧ s.nextInputs.commandOnly = true ∧ s.halted = true) := by decide

/-- SequencerStepX, and the last clause of GatedCommandsAreDropped: halted beforehand; HLT; the guard at 15; going on at 14. -/
theorem witness_step_x :
    (let s : State := { loopAt 0#16 0x3005#16 .x with halted := true }
     s.busy = true ∧ s.rcPos = .x ∧ s.nextInputs.commandOnly = true ∧ s.halted = true) ∧
    (let s := loopAt 15#16 0xA000#16 .x
     s.busy = true ∧ s.rcPos = .x ∧ s.halted = false ∧ (landed (exec (decodeWord s.mbr) s.popped)).halted = true) ∧
    (let s := loopAt 15#16 0x3005#16 .x
     s.busy = true ∧ s.rcPos = .x ∧ s.halted = false ∧ 15 < (landed (exec (decodeWord s.mbr) s.popped)).pc.toNat) ∧
    (let s := loopAt 14#16 0x3005#16 .x
     s.busy = true ∧ s.rcPos = .x ∧ s.halted = false ∧ (landed (exec (decodeWord s.mbr) s.popped)).halted = false ∧
     (landed (exec (decodeWord s.mbr) s.popped)).pc.toNat ≤ 15) := by decide

/-- RunawayGuardStopsAtSixteen, and the second way of LoopEndsInThreeWays: a JMP without operand at 15. -/
theorem witness_runaway :
    let s := loopAt 15#16 0x8000#16 .x
    s.busy = true ∧ s.halted = false ∧ s.rcPos = .x ∧ s.pc.toNat ≤ 15 ∧ s.nextInputs.quiet = true ∧
    step s = .next (landed (step s)) ∧ (landed (step s)).busy = false ∧ (landed (step s)).halted = false ∧
    s.nextInputs.por = false := ⟨rfl, rfl, rfl, by decide, rfl, rfl, rfl, rfl, rfl⟩

/-- LoopEndsInThreeWays: the other two ways, HLT and cancellation at F. -/
theorem witness_loop_ends :
    (let s := loopAt 15#16 0xA000#16 .x
     s.busy = true ∧ s.halted = false ∧ s.nextInputs.por = false ∧ step s = .next (landed (step s)) ∧
     (landed (step s)).busy = false) ∧
    (let s : State := { loopAt 0#16 0#16 .f with cancel := true, running := false }
     s.busy = true ∧ s.halted = false ∧ s.nextInputs.por = false ∧ step s = .next (landed (step s)) ∧
     (landed (step s)).busy = false) := ⟨⟨rfl, rfl, rfl, rfl, rfl⟩, ⟨rfl, rfl, rfl, rfl, rfl⟩⟩

/-- RunOutOfRangeAdvancesByOne at both ends of its range. -/
theorem witness_run_out_of_range (pc : Word) (h : pc = 16#16 ∨ pc = 65534#16) :
    let s := given (idleCore pc 7#16 0x3005#16) [commandInputs 4#3, commandInputs 1#3, idleInputs, idleInputs]
    s.accepts = true ∧ 15 < s.pc.toNat ∧ s.pc.toNat < 65535 ∧
    s.pending = commandInputs 4#3 :: commandInputs 1#3 :: idleInputs :: idleInputs :: [] ∧
    (commandInputs 4#3).cmd = 4#3 ∧ (commandInputs 4#3).commandOnly = true ∧ (commandInputs 1#3).commandOnly = true ∧
    idleInputs.commandOnly = true := by
  rcases h with rfl | rfl <;> decide

/-- DrainAfterReset: in flight at each of the three positions. -/
theorem witness_drain :
    (loopAt 3#16 0x5003#16 .f).busy = true ∧ (loopAt 3#16 0x5003#16 .x).busy = true ∧ (loopAt 3#16 0x5003#16 .d).busy = true ∧
    (loopAt 3#16 0x5003#16 .f).rcPos = .f ∧ (loopAt 3#16 0x5003#16 .x).rcPos = .x ∧ (loopAt 3#16 0x5003#16 .d).rcPos = .d ∧
    resetSample.por = false ∧ resetSample.rst = true ∧ resetSample.memWe = false ∧ (commandInputs 1#3).commandOnly = true := by
  decide

/-- SetMemoryWritesOneSlot: the strobe in a reset edge; addresses -1 and 16; addresses 0 and 15 with a text. -/
theorem witness_edit :
    ({ editSample 0#3 15#4 0xFFFF#16 with rst := true } : EdgeInputs).por = false ∧
    ({ editSample 0#3 15#4 0xFFFF#16 with rst := true } : EdgeInputs).memWe = true ∧
    ((-1 : Int) < 0 ∨ 15 < (-1 : Int)) ∧ ((16 : Int) < 0 ∨ 15 < (16 : Int)) ∧
    (0 ≤ (0 : Int) ∧ (0 : Int) ≤ 15) ∧ (0 ≤ (15 : Int) ∧ (15 : Int) ≤ 15) ∧
    assemble (some ['M', 'O', 'V', ' ', '9']) = .ok 0x3009#16 :=
  ⟨rfl, rfl, by decide, by decide, by decide, by decide, rfl⟩

/-- SameEdgeFetchReadsOldWord: by command at slot 15, by the sequencer at slot 0. -/
theorem witness_same_edge :
    (let s := given (idleCore 15#16 0#16 0#16) [editSample 1#3 15#4 0x5064#16]
     s.Fetches ∧ s.nextInputs.quiet = true ∧ s.nextInputs.memWe = true ∧ s.pc.toNat = s.nextInputs.memWaddr.toNat) ∧
    (let s := given (looping (idleCore 0#16 0#16 0#16) .f) [editSample 0#3 0#4 0x5064#16]
     s.Fetches ∧ s.nextInputs.quiet = true ∧ s.nextInputs.memWe = true ∧ s.pc.toNat = s.nextInputs.memWaddr.toNat) :=
  ⟨⟨.inr ⟨rfl, rfl⟩, rfl, rfl, rfl⟩, ⟨.inl ⟨rfl, rfl, rfl, rfl⟩, rfl, rfl, rfl⟩⟩

/-- LoaderReportsTheAddressFirst: the addresses next to the range, with a text that `Assemble` refuses. -/
theorem witness_loader :
    ((16 : Int) < 0 ∨ 15 < (16 : Int)) ∧ ((-1 : Int) < 0 ∨ 15 < (-1 : Int)) ∧
    assemble (some ['M', 'O', 'V', ' ', '2', '0', '4', '8']) = .error .immediateOutOfRange := ⟨by decide, by decide, rfl⟩

/-- An edit of the slot at PC 15 with nothing else on the ports, and with a command. -/
def editAtPc (cmd : BitVec 3) : EdgeInputs := editSample cmd 15#4 0x3009#16

/-- EditSeenAtNextFetchOnly, the single step: an edge with an edit at X (no Fetch, no Decode), and one at D. -/
theorem witness_edit_beside_stage :
    (let s := given (loopAt 15#16 0x3005#16 .x) [editAtPc 0#3]
     step s = .next (landed (step s)) ∧ s.nextInputs.quiet = true ∧ ¬ s.Fetches ∧ ¬ s.Decodes) ∧
    (let s := given (loopAt 15#16 0x3005#16 .d) [editAtPc 0#3]
     step s = .next (landed (step s)) ∧ s.nextInputs.quiet = true ∧ s.Decodes) :=
  ⟨⟨rfl, rfl, fun h => h.elim (fun h => absurd h.2.1 (by decide)) (fun h => absurd h.1 (by decide)),
      fun h => h.elim (fun h => absurd h.2.1 (by decide)) (fun h => absurd h.1 (by decide))⟩,
    rfl, rfl, .inl ⟨rfl, rfl, rfl⟩⟩

/-- EditSeenAtNextFetchOnly, the cycles: edits of the slot at PC on every edge, by hand, by the sequencer from F and from D. -/
theorem witness_edit_in_cycle :
    (let s := given (idleCore 15#16 7#16 0#16) [editAtPc 1#3, editAtPc 2#3, editAtPc 3#3]
     s.pending = editAtPc 1#3 :: editAtPc 2#3 :: editAtPc 3#3 :: [] ∧ (editAtPc 1#3).quiet = true ∧
     (editAtPc 2#3).quiet = true ∧ (editAtPc 3#3).quiet = true ∧ s.halted = false ∧ s.busy = false ∧
     (editAtPc 1#3).cmd = 1#3 ∧ (editAtPc 2#3).cmd = 2#3 ∧ (editAtPc 3#3).cmd = 3#3) ∧
    (let s := given (loopAt 15#16 0#16 .f) [editAtPc 0#3, editAtPc 0#3, editAtPc 0#3]
     s.pending = editAtPc 0#3 :: editAtPc 0#3 :: editAtPc 0#3 :: [] ∧ (editAtPc 0#3).quiet = true ∧ s.halted = false ∧
     s.busy = true ∧ s.rcPos = .f ∧ s.cancel = false) ∧
    (let s := given (loopAt 15#16 0x3005#16 .d) [editAtPc 0#3, editAtPc 0#3]
     s.pending = editAtPc 0#3 :: editAtPc 0#3 :: [] ∧ (editAtPc 0#3).quiet = true ∧ s.busy = true ∧ s.rcPos = .d ∧
     s.halted = false) := by decide

/-- EditSeenAtNextFetchOnly, an edit and then EXECUTE by hand. -/
theorem witness_edit_then_execute :
    let s := given (idleCore 15#16 0#16 0x3005#16) [editAtPc 0#3, commandInputs 3#3]
    s.accepts = true ∧ (editAtPc 0#3).quiet = true ∧ (editAtPc 0#3).memWe = true ∧
    s.pending = editAtPc 0#3 :: commandInputs 3#3 :: [] ∧ (commandInputs 3#3).commandOnly = true ∧
    (editAtPc 0#3).cmd = 0#3 ∧ (commandInputs 3#3).cmd = 3#3 := by decide

/-- EditSeenAtNextFetchOnly, the next Fetch: by hand on the next edge; and by the sequencer two edges after an edit at D of the
slot that follows the one in execution, with another slot edited between. -/
theorem witness_edit_then_fetch :
    (let s := given (idleCore 15#16 0#16 0x3005#16) [editAtPc 0#3, commandInputs 1#3]
     let t := landed (s.run 1)
     s.pending = editAtPc 0#3 :: commandInputs 1#3 :: [] ∧ (editAtPc 0#3).por = false ∧ (editAtPc 0#3).memWe = true ∧
     s.run 1 = .next t ∧ t.Fetches ∧ t.nextInputs.quiet = true ∧ t.pc.toNat = (editAtPc 0#3).memWaddr.toNat) ∧
    (let s := given (loopAt 14#16 0x3005#16 .d) [editAtPc 0#3, editSample 0#3 0#4 1#16]
     let t := landed (s.run 2)
     s.pending = editAtPc 0#3 :: editSample 0#3 0#4 1#16 :: [] ∧
     (∀ j ∈ [editSample 0#3 0#4 1#16].take 1, j.por = false ∧ (j.memWe = true → j.memWaddr ≠ (editAtPc 0#3).memWaddr)) ∧
     s.run 2 = .next t ∧ t.Fetches ∧ t.nextInputs.quiet = true ∧ t.pc.toNat = (editAtPc 0#3).memWaddr.toNat) :=
  ⟨⟨rfl, rfl, rfl, rfl, .inr ⟨rfl, rfl⟩, rfl, rfl⟩, rfl, by decide, rfl, .inl ⟨rfl, rfl, rfl, rfl⟩, rfl, rfl⟩

/-- CanonicalMemoriesAreTheirSlots: one memory reached by two orders of writing. -/
theorem witness_canonical :
    let m := Memory.writeSlot (Memory.writeSlot [] 0#4 0xFFFF#16) 15#4 0x0100#16
    let n := Memory.writeSlot (Memory.writeSlot [] 15#4 0x0100#16) 0#4 0xFFFF#16
    m.wf = true ∧ n.wf = true ∧ ∀ a, m.readSlot a = n.readSlot a := by decide

/-- PowerOnPutsEveryPowerOnValue: power-on of a halted core. -/
theorem witness_power_on :
    (given { idleCore 9#16 9#16 9#16 with halted := true } [powerSample]).nextInputs.por = true := by decide

/-- ResetCommandEffect, with and without an edit on the edge. -/
theorem witness_reset :
    (let s := given (loopAt 9#16 0x3005#16 .x) [resetSample]
     s.nextInputs.por = false ∧ s.nextInputs.rst = true ∧ s.nextInputs.memWe = false) ∧
    (let s := given (loopAt 9#16 0x3005#16 .x) [{ editSample 4#3 15#4 1#16 with rst := true }]
     s.nextInputs.por = false ∧ s.nextInputs.rst = true ∧ s.nextInputs.memWe = true) := by decide

/-- ResetIsIdempotentAndAlwaysTaken and HaltedSetByHltClearedByReset: two resets; a step that clears `halted`; one that sets it. -/
theorem witness_halted_changes :
    (resetSample.por = false ∧ resetSample.rst = true ∧ resetSample.memWe = false) ∧
    (let s := given { idleCore 4#16 7#16 0xA000#16 with halted := true } [resetSample]
     step s = .next (landed (step s)) ∧ s.halted = true ∧ (landed (step s)).halted = false ∧
     s.nextInputs.quiet = false) ∧
    (let s := given (idleCore 4#16 7#16 0xA000#16) [commandInputs 3#3]
     step s = .next (landed (step s)) ∧ s.halted = false ∧ (landed (step s)).halted = true) :=
  ⟨by decide, ⟨rfl, rfl, rfl, rfl⟩, ⟨rfl, rfl, rfl⟩⟩

/-- HaltedCoreKeepsItsState: commands with and without edits, no reset. -/
theorem witness_halted_core :
    (let s := given { idleCore 4#16 7#16 0xA000#16 with halted := true } [editSample 4#3 4#4 0#16, commandInputs 1#3]
     s.halted = true ∧ s.busy = false ∧ ∀ i ∈ s.pending, i.quiet = true) ∧
    (let s := given { idleCore 4#16 7#16 0xA000#16 with halted := true } [commandInputs 4#3, commandInputs 1#3]
     s.halted = true ∧ s.busy = false ∧ (∀ i ∈ s.pending, i.quiet = true) ∧ ∀ i ∈ s.pending, i.memWe = false) := by decide

/-- A drained loop: a state of the invariants that is no reset state (V-D20, edge 3). -/
def draining : State := { State.reset with stage := .decode, busy := true, cancel := true, rcPos := .x, pending := [idleInputs] }

/-- StepKeepsInv. -/
theorem witness_inv : State.Inv draining ∧ step draining = .next (landed (step draining)) :=
  ⟨⟨rfl, fun _ => rfl, fun _ => rfl, fun _ => rfl, fun _ _ => rfl, fun h => absurd h (by decide), by decide⟩, rfl⟩

/-- SnapshotShowsAllButTheSequencer: a drained loop at X and the same state with no loop in flight. -/
theorem witness_snapshot :
    State.Inv draining ∧ State.Inv { State.reset with stage := .decode } ∧
    draining.snapshot = ({ State.reset with stage := .decode } : State).snapshot :=
  ⟨witness_inv.1,
    ⟨rfl, fun _ => rfl, fun _ => rfl, fun h => absurd h (by decide), fun h => absurd h (by decide),
      fun h => absurd h (by decide), by decide⟩, rfl⟩

/-- A state out of range after a Fetch by hand at 0xFFFF, about to execute. -/
def fetchedAtTop : State :=
  { idleCore 0xFFFF#16 7#16 0#16 with
    marV := true, mar := 0xFFFF#16, hlV := true, hlAddr := 0xFFFF#16, stage := .fetch, pending := [commandInputs 3#3] }

/-- StepKeepsStagingInv, and PcOutOfRangeReturnsOnlyByReset at the wrap. -/
theorem witness_staging_inv :
    State.StagingInv fetchedAtTop ∧ step fetchedAtTop = .next (landed (step fetchedAtTop)) ∧
    15 < fetchedAtTop.pc.toNat ∧ (landed (step fetchedAtTop)).pc.toNat ≤ 15 :=
  ⟨⟨fun h => absurd h (by decide), fun _ _ => rfl, fun _ => ⟨rfl, rfl, rfl⟩, fun h => absurd h (by decide),
    fun h => absurd h (by decide)⟩, rfl, by decide, by decide⟩

/-- PcOutOfRangeReturnsOnlyByReset by a reset. -/
theorem witness_out_of_range_reset :
    State.StagingInv (given (idleCore 16#16 7#16 0#16) [resetSample]) ∧
    (let s := given (idleCore 16#16 7#16 0#16) [resetSample]
     step s = .next (landed (step s)) ∧ 15 < s.pc.toNat ∧ (landed (step s)).pc.toNat ≤ 15) :=
  ⟨⟨fun _ => ⟨rfl, rfl⟩, fun _ _ => rfl, fun h => absurd h (by decide), fun h => absurd h (by decide),
    fun h => absurd h (by decide)⟩, rfl, by decide, by decide⟩

/-- PcLeavesRangeOnlyFromFifteen: a NOP at 15, by command. -/
theorem witness_leaves_range :
    let s := given (idleCore 15#16 7#16 0#16) [commandInputs 3#3]
    step s = .next (landed (step s)) ∧ s.pc.toNat ≤ 15 ∧ 15 < (landed (step s)).pc.toNat :=
  ⟨rfl, by decide, by decide⟩

/-- WriteMatrix, the clauses of a Fetch. -/
theorem witness_matrix_fetch :
    let s := given (idleCore 3#16 7#16 1#16) [commandInputs 1#3]
    let t := landed (step s)
    step s = .next t ∧ s.nextInputs.quiet = true ∧ t.marV ≠ s.marV ∧ t.mar ≠ s.mar ∧ t.mbr ≠ s.mbr ∧ t.stage ≠ s.stage ∧
    t.hlV ≠ s.hlV ∧ t.hlAddr ≠ s.hlAddr :=
  ⟨rfl, by decide, by decide, by decide, by decide, by decide, by decide, by decide⟩

/-- WriteMatrix, the clauses of a Decode, an Execute of ADD and one of HLT. -/
theorem witness_matrix_execute :
    (let s := given (idleCore 3#16 7#16 0x5001#16) [commandInputs 2#3]
     step s = .next (landed (step s)) ∧ s.nextInputs.quiet = true ∧ (landed (step s)).ir ≠ s.ir) ∧
    (let s := given (idleCore 3#16 7#16 0x5001#16) [commandInputs 3#3]
     step s = .next (landed (step s)) ∧ s.nextInputs.quiet = true ∧ (landed (step s)).pc ≠ s.pc ∧
     (landed (step s)).acc ≠ s.acc) ∧
    (let s := given (idleCore 3#16 7#16 0xA000#16) [commandInputs 3#3]
     step s = .next (landed (step s)) ∧ s.nextInputs.quiet = true ∧ (landed (step s)).halted ≠ s.halted) :=
  ⟨⟨rfl, by decide, by decide⟩, ⟨rfl, by decide, by decide, by decide⟩, ⟨rfl, by decide, by decide⟩⟩

/-- WriteMatrix, the clauses of an accepted RUN, of a loop's end and of an edit. -/
theorem witness_matrix_run :
    (let s := given { State.reset with cancel := true, rcPos := .x } [commandInputs 4#3]
     step s = .next (landed (step s)) ∧ s.nextInputs.quiet = true ∧ (landed (step s)).running ≠ s.running ∧
     (landed (step s)).busy ≠ s.busy ∧ (landed (step s)).cancel ≠ s.cancel ∧ (landed (step s)).rcPos ≠ s.rcPos) ∧
    (let s := loopAt 15#16 0#16 .x
     step s = .next (landed (step s)) ∧ s.nextInputs.quiet = true ∧ (landed (step s)).running ≠ s.running ∧
     (landed (step s)).busy ≠ s.busy ∧ (landed (step s)).rcPos ≠ s.rcPos) ∧
    (let s := given State.reset [editSample 0#3 15#4 1#16]
     step s = .next (landed (step s)) ∧ s.nextInputs.quiet = true ∧ (landed (step s)).imem ≠ s.imem) :=
  ⟨⟨rfl, by decide, by decide, by decide, by decide, by decide⟩, ⟨rfl, by decide, by decide, by decide, by decide⟩,
    ⟨rfl, by decide, by decide⟩⟩

/-- PresentationIsNeverRead and PathIndependentOfAcc: two different states each. -/
theorem witness_blind :
    (State.withoutPresentation { loopAt 3#16 0x9000#16 .x with ir := 0x9000#16, stage := .decode, hlV := true, hlAddr := 3#16 } =
      (loopAt 3#16 0x9000#16 .x).withoutPresentation) ∧
    State.withoutAcc { loopAt 3#16 0x9000#16 .x with acc := 0x8000#16 } = (loopAt 3#16 0x9000#16 .x).withoutAcc := by decide

/-- AssembleRefusesOutOfRangeLiterals: the literals next to the ends of the range, outside and inside. -/
theorem witness_refused_literals :
    (['J', 'M', 'P'] ∈ operandTags ∧
      sourceDecode (some ['J', 'M', 'P', ' ', '-', '2', '0', '4', '9']) = { tag := ['J', 'M', 'P'], operand := some (-2049) } ∧
      sourceDecode (some ['J', 'M', 'P', ' ', '2', '0', '4', '8']) = { tag := ['J', 'M', 'P'], operand := some 2048 }) ∧
    (assemble (some ['J', 'M', 'P', ' ', '-', '2', '0', '4', '9']) = .error .immediateOutOfRange) ∧
    (sourceDecode (some ['J', 'M', 'P', ' ', '-', '2', '0', '4', '8']) = { tag := ['J', 'M', 'P'], operand := some (-2048) } ∧
      sourceDecode (some ['J', 'M', 'P', ' ', '2', '0', '4', '7']) = { tag := ['J', 'M', 'P'], operand := some 2047 }) :=
  ⟨by decide, rfl, by decide⟩

/-- ArithmeticWrapsModulo: ACC equal to the operand at the lowest one. -/
theorem witness_same_value : (0xF800#16 : Word) = immValue 0x800#12 := by decide

/-- LiteralsAreSignedDecimals: digits with leading zeros, a token that parses, a text with and one without a second token. -/
theorem witness_literals :
    ([0, 0, 7] : List (Fin 10)) ≠ [] ∧ parseInt ['-', '0', '9'] = some (-9) ∧ token1 ['M', 'O', 'V'] = none ∧
    token1 ['M', 'O', 'V', ' ', '5'] = some ['5'] := by decide

/-- AssembleIgnoresCase: an accepted text, and characters at the ends of the lower-case range and beside it. -/
theorem witness_case :
    (['m', 'o', 'v'] : Text) ≠ [] ∧ assemble (some ['m', 'o', 'v']) = .ok 0x2000#16 ∧
    (97 ≤ 'a'.toNat ∧ 'a'.toNat ≤ 122) ∧ (97 ≤ 'z'.toNat ∧ 'z'.toNat ≤ 122) ∧ '`'.toNat < 97 ∧ 122 < '|'.toNat :=
  ⟨by decide, rfl, by decide, by decide, by decide, by decide⟩

/-- TokensAreCutAtWhitespaceRuns: an empty first piece, a run of two, more text behind; a text that ends in whitespace (both
pieces empty: a text of whitespace only); a text without whitespace. -/
theorem witness_tokens :
    ((∀ c ∈ ([] : Text), isSpace c = false) ∧ (∀ c ∈ (['5'] : Text), isSpace c = false) ∧
      (∀ c ∈ ([' ', '\t'] : Text), isSpace c = true) ∧ ([' ', '\t'] : Text) ≠ [] ∧ ((['5'] : Text) ≠ [] ∨ ([' ', '9'] : Text) = []) ∧
      (∀ c ∈ ([' ', '9'] : Text).head?, isSpace c = true)) ∧
    ((([] : Text) ≠ [] ∨ ([] : Text) = []) ∧ ∀ c ∈ ([] : Text).head?, isSpace c = true) ∧
    (∀ c ∈ (['m', 'O', 'v'] : Text), isSpace c = false) := by
  simp [isSpace]

/-- `MOV ` and whitespace only, as R88 and R85 have them: the last piece is empty. -/
theorem test_trailing_whitespace :
    token1 ['M', 'O', 'V', ' '] = some [] ∧ token0 [' ', '\t'] = [] ∧ token1 [' ', '\t'] = some [] := by decide

end Sys2Proof.Tests
end

section
/-! PROOFS. The family of 10_state.md: what a step does to `halted` (rule R27). -/

namespace Sys2Proof.Machine

/-! ### What a step can do to `halted` -/

/-- Execute of a word sets `halted` on HLT and otherwise leaves it. -/
theorem wordResult_halted_cases (w : Word) (s : State) :
    (wordResult w s).halted = s.halted ∨ (opField w = 5#3 ∧ (wordResult w s).halted = true) := by
  by_cases ho : opField w = 5#3
  · exact .inr ⟨ho, by simp [ho]⟩
  · exact .inl (by simp [ho])

/-- An action of an edge leaves `halted`, but for an Execute of HLT, which sets it. -/
theorem QuietAction.halted_cases {s u : State} (h : QuietAction s u) :
    u.halted = s.halted ∨ (s.Executes ∧ opField s.mbr = 5#3 ∧ u.halted = true) := by
  have executed (hx : s.Executes) (hu : u.halted = (wordResult s.mbr s.popped).halted) :
      u.halted = s.halted ∨ (s.Executes ∧ opField s.mbr = 5#3 ∧ u.halted = true) :=
    hu ▸ (wordResult_halted_cases s.mbr s.popped).imp_right fun ⟨ho, ht⟩ => ⟨hx, ho, ht⟩
  cases h with
  | execute ha hc => exact executed (.inr ⟨ha, hc⟩) rfl
  | lastX hb hr hh => exact executed (.inl ⟨hb, hr, hh⟩) rfl
  | stepX hb hr hh => exact executed (.inl ⟨hb, hr, hh⟩) rfl
  | nothing | fetch | decode | run | exitF | stepF | exitD | stepD | exitX => exact .inl rfl

/-- Everything a step can do to `halted`: power-on and reset clear it, an Execute of HLT sets it, all else leaves it. -/
theorem step_halted_cases {s t : State} (h : step s = .next t) :
    (s.nextInputs.quiet = false ∧ t.halted = false) ∨
    (s.nextInputs.quiet = true ∧ t.halted = s.halted) ∨
    (s.nextInputs.quiet = true ∧ s.Executes ∧ opField s.mbr = 5#3 ∧ t.halted = true) := by
  rcases step_cases h with ⟨hp, rfl⟩ | ⟨_, hr, rfl⟩ | ⟨hq, u, hu, rfl⟩
  · exact .inl ⟨by simp [EdgeInputs.quiet, hp], rfl⟩
  · exact .inl ⟨by simp [EdgeInputs.quiet, hr], by simp⟩
  · rw [State.editPort_halted]
    exact .inr (hu.halted_cases.imp (⟨hq, ·⟩) (⟨hq, ·⟩))

/-! ### A halted core and the command port -/

/-- The action of an edge of a halted core: `cmd` plays no part, because a loop in flight does not read it and with none in
flight the command is ignored. -/
theorem edgeAction_of_halted {s : State} (h : s.halted = true) (i : EdgeInputs) :
    s.edgeAction i = if i.rst then .next s.resetOp else if s.busy then s.seqStep else .next s := by
  rw [State.edgeAction, hostCommand_of_halted h]

/-- Samples that differ in the command alone give a halted core the same edge. -/
theorem edge_cmd_of_halted {s : State} (h : s.halted = true) (i : EdgeInputs) (c d : BitVec 3) :
    s.edge { i with cmd := c } = s.edge { i with cmd := d } := by
  rw [State.edge, State.edge, edgeAction_of_halted h, edgeAction_of_halted h]
  rfl

/-! ### Rule R27 -/

/-- Settles O40: three readings of `step_halted_cases`, and `edge_cmd_of_halted` for the ignored commands. -/
theorem haltedSetByHltClearedByReset : Obligations.HaltedSetByHltClearedByReset := by
  refine ⟨fun s t h h0 h1 => ?set, fun s t h h1 h0 => ?clear, fun s t h hq => ?zero, fun s i rest c hh => ?ignored⟩
  case set =>
    rcases step_halted_cases h with ⟨_, ht⟩ | ⟨_, ht⟩ | ⟨hq, hx, ho, _⟩
    · simp [ht] at h1
    · simp [ht, h0] at h1
    · exact ⟨hx, hq, ho⟩
  case clear =>
    rcases step_halted_cases h with ⟨hq, _⟩ | ⟨_, ht⟩ | ⟨_, _, _, ht⟩
    · exact hq
    · simp [ht, h1] at h0
    · simp [ht] at h0
  case zero =>
    rcases step_halted_cases h with ⟨_, ht⟩ | ⟨hq', _⟩ | ⟨hq', _⟩
    · exact ht
    · simp [hq'] at hq
    · simp [hq'] at hq
  case ignored =>
    rw [step_eq_edge, step_eq_edge]
    exact edge_cmd_of_halted (s := { s with pending := rest }) hh i c 0#3

end Sys2Proof.Machine
end

section
/-! PROOFS. The family of 20_memory.md: the host's memory edit, on its own edge and at the Fetches after it
(rules R53, R64, R65). -/

namespace Sys2Proof.Machine

/-! ### The edit and its edge (rule R53) -/

/-- Every step answers a next state. -/
theorem step_answers (s : State) : ∃ t, step s = .next t := by
  cases hp : s.nextInputs.por with
  | true => exact ⟨_, step_of_por hp⟩
  | false =>
    cases hr : s.nextInputs.rst with
    | true => exact ⟨_, step_of_rst hp hr⟩
    | false =>
      obtain ⟨u, _, h⟩ := step_quiet_action (s.nextInputs.quiet_iff.2 ⟨hp, hr⟩)
      exact ⟨_, h⟩

/-- The edit comes last: the edge with a strobe is the edge without it, then the edit. -/
theorem step_edit_last (s : State) {i : EdgeInputs} (rest : List EdgeInputs) (hp : i.por = false) :
    step { s with pending := i :: rest } =
      andThen (step { s with pending := { i with memWe := false } :: rest }) (fun u => .next (u.editPort i)) := by
  have action : State.edgeAction { s with pending := rest } { i with memWe := false } =
      State.edgeAction { s with pending := rest } i := rfl
  change State.edge { s with pending := rest } i =
    andThen (State.edge { s with pending := rest } { i with memWe := false }) _
  rw [edge_of_not_por hp, edge_of_not_por (i := { i with memWe := false }) hp, action]
  cases State.edgeAction { s with pending := rest } i <;> rfl

theorem editPort_of_memWe {s : State} {i : EdgeInputs} (h : i.memWe = true) :
    s.editPort i = s.setMemory i.memWaddr i.memWdata := by
  simp [State.editPort, h]

/-! ### The loader (rule R53) -/

theorem slotInRange_iff (a : Int) : slotInRange a = true ↔ 0 ≤ a ∧ a ≤ 15 := by
  simp [slotInRange, Config.addrMax]

theorem setMemoryText_of_out_of_range (s : State) {address : Int} (text : Option Text)
    (h : address < 0 ∨ 15 < address) : s.setMemoryText address text = .error .outOfRange := by
  have hr : ¬ slotInRange address = true := by rw [slotInRange_iff]; omega
  rw [State.setMemoryText, if_neg hr]

theorem setMemoryText_of_in_range (s : State) {address : Int} {text : Option Text} {w : Word}
    (h0 : 0 ≤ address) (h15 : address ≤ 15) (hw : assemble text = .ok w) :
    s.setMemoryText address text = .ok (s.setMemory (BitVec.ofInt 4 address) w) := by
  rw [State.setMemoryText, if_pos ((slotInRange_iff address).2 ⟨h0, h15⟩), hw]

/-- The slot an address in range names. -/
theorem eq_ofInt_iff_toNat_eq {a : SlotAddr} {address : Int} (h0 : 0 ≤ address) (h15 : address ≤ 15) :
    a = BitVec.ofInt 4 address ↔ (a.toNat : Int) = address := by
  have ht : (BitVec.ofInt 4 address).toNat = address.toNat := by
    rw [BitVec.toNat_ofInt]
    omega
  rw [← BitVec.toNat_inj, ht]
  omega

/-- Settles O33: the edit comes last on its edge and writes one slot; the loader's three cases. -/
theorem setMemoryWritesOneSlot : Obligations.SetMemoryWritesOneSlot := by
  refine ⟨fun s i rest hp hw => ?edge, fun s address text ha => ?outside, fun s address text w h0 h15 hw => ?inside⟩
  case edge =>
    obtain ⟨u, hu⟩ := step_answers { s with pending := { i with memWe := false } :: rest }
    have hu_imem : u.imem = s.imem := step_imem hu hp
    refine ⟨u.setMemory i.memWaddr i.memWdata, u, ?_, hu, hu_imem, rfl, fun a => ?_⟩
    · rw [step_edit_last s rest hp, hu, andThen_next, editPort_of_memWe hw]
    · rw [State.setMemory_imem, hu_imem, Memory.readSlot_writeSlot]
  case outside =>
    have refused := setMemoryText_of_out_of_range s text ha
    exact ⟨⟨_, refused⟩, fun _ _ => refused⟩
  case inside =>
    refine ⟨_, setMemoryText_of_in_range s h0 h15 hw, rfl, fun a => ?_⟩
    simp only [State.setMemory_imem, Memory.readSlot_writeSlot, eq_ofInt_iff_toNat_eq h0 h15]

/-! ### The edges with a Fetch, a Decode or an Execute, by hand and by the sequencer

One equation each for both ways: the sequencer moves `rc_pos`, a command leaves it. -/

/-- The edge with a Fetch. -/
theorem step_of_fetches {s : State} (hf : s.Fetches) (hq : s.nextInputs.quiet = true) :
    step s = .next ((s.popped.fetchStage.withRcPos (if s.busy then .d else s.rcPos)).editPort s.nextInputs) := by
  rw [step_of_quiet hq]
  rcases hf with ⟨hb, hr, hc, hh⟩ | ⟨ha, hc⟩
  · simp [hb, hr, hc, hh, State.seqStep, State.seqF]
  · obtain ⟨hh, hb⟩ := s.accepts_iff.1 ha
    have unmoved : s.popped.fetchStage.withRcPos s.rcPos = s.popped.fetchStage := rfl
    simp [hb, hc, hh, commandOf, State.hostCommand, unmoved]

/-- The edge with a Decode. -/
theorem step_of_decodes {s : State} (hd : s.Decodes) (hq : s.nextInputs.quiet = true) :
    step s = .next ((s.popped.decodeStage.withRcPos (if s.busy then .x else s.rcPos)).editPort s.nextInputs) := by
  rw [step_of_quiet hq]
  rcases hd with ⟨hb, hr, hh⟩ | ⟨ha, hc⟩
  · simp [hb, hr, hh, State.seqStep, State.seqD]
  · obtain ⟨hh, hb⟩ := s.accepts_iff.1 ha
    have unmoved : s.popped.decodeStage.withRcPos s.rcPos = s.popped.decodeStage := rfl
    simp [hb, hc, hh, commandOf, State.hostCommand, unmoved]

/-- The edge with an Execute. -/
theorem step_of_executes {s : State} (hx : s.Executes) (hq : s.nextInputs.quiet = true) :
    step s = .next ((if s.busy then (wordResult s.mbr s.popped).afterExecute
      else wordResult s.mbr s.popped).editPort s.nextInputs) := by
  rw [step_of_quiet hq]
  rcases hx with ⟨hb, hr, hh⟩ | ⟨ha, hc⟩
  · simp [hb, hr, hh, State.seqStep, State.seqX, executeStage_eq]
  · obtain ⟨hh, hb⟩ := s.accepts_iff.1 ha
    simp [hb, hc, hh, commandOf, State.hostCommand, executeStage_eq]

/-- An edge that accepts commands and is given none does its edit alone. -/
theorem step_of_no_command {s : State} (ha : s.accepts = true) (hc : s.nextInputs.cmd = 0#3)
    (hq : s.nextInputs.quiet = true) : step s = .next (s.popped.editPort s.nextInputs) := by
  obtain ⟨_, hb⟩ := s.accepts_iff.1 ha
  rw [step_of_quiet hq]
  simp [hb, hc, commandOf, State.hostCommand]

/-- The halt short-circuit and the runaway guard change the loop's own bits only. -/
theorem afterExecute_eq (t : State) :
    t.afterExecute =
      { t with running := t.afterExecute.running, busy := t.afterExecute.busy, rcPos := t.afterExecute.rcPos } := by
  rcases afterExecute_cases t with ⟨_, h⟩ | ⟨_, _, h⟩ | ⟨_, _, h⟩ <;> rw [h] <;> rfl

/-! ### A cycle in progress keeps its word (rule R64) -/

/-- MBR changes on an edge with a Fetch only. -/
theorem QuietAction.fetches_or_mbr_eq {s u : State} (h : QuietAction s u) : s.Fetches ∨ u.mbr = s.mbr := by
  cases h with
  | fetch ha hc => exact .inl (.inr ⟨ha, hc⟩)
  | stepF hb hr hc hh => exact .inl (.inl ⟨hb, hr, hc, hh⟩)
  | nothing | decode | execute | run | exitF | exitD | stepD | exitX | lastX | stepX => exact .inr rfl

/-- IR changes on an edge with a Decode only. -/
theorem QuietAction.decodes_or_ir_eq {s u : State} (h : QuietAction s u) : s.Decodes ∨ u.ir = s.ir := by
  cases h with
  | decode ha hc => exact .inl (.inr ⟨ha, hc⟩)
  | stepD hb hr hh => exact .inl (.inl ⟨hb, hr, hh⟩)
  | nothing | fetch | execute | run | exitF | stepF | exitD | exitX | lastX | stepX => exact .inr rfl

/-- An Execute, with any edit on its edge, runs the word in MBR. -/
theorem step_executes_mbr {s : State} (hx : s.Executes) (hq : s.nextInputs.quiet = true) :
    ∃ u, step s = .next u ∧ u.mbr = s.mbr ∧ u.ir = s.ir ∧
      u.acc = wordAcc s.mbr s.acc ∧ u.pc = wordPc s.mbr s.pc ∧ u.halted = (s.halted || decide (opField s.mbr = 5#3)) := by
  refine ⟨_, step_of_executes hx hq, ?_⟩
  cases s.busy with
  | true => rw [if_pos rfl, afterExecute_eq]; simp
  | false => simp

/-- A Decode and then an Execute, with any edits on their edges, run the word that stood in MBR. -/
theorem run_two_of_decodes {s : State} {j k : EdgeInputs} {rest : List EdgeInputs} (hp : s.pending = j :: k :: rest)
    (hj : j.quiet = true) (hk : k.quiet = true) (hd : s.Decodes) (hcmd : s.busy = false → k.cmd = 3#3) :
    ∃ u, s.run 2 = .next u ∧ u.mbr = s.mbr ∧ u.ir = s.mbr ∧
      u.acc = wordAcc s.mbr s.acc ∧ u.pc = wordPc s.mbr s.pc ∧ u.halted = (s.halted || decide (opField s.mbr = 5#3)) := by
  have hin : s.nextInputs = j := by simp [State.nextInputs, hp]
  have hstep := step_of_decodes hd (hin ▸ hj)
  generalize ht : (s.popped.decodeStage.withRcPos (if s.busy then .x else s.rcPos)).editPort s.nextInputs = t at hstep
  have hin' : t.nextInputs = k := by simp [State.nextInputs, ← ht, hp]
  have hx : t.Executes := by
    rcases hd with ⟨hb, _, hh⟩ | ⟨ha, _⟩
    · exact .inl (by simp [← ht, hb, hh])
    · obtain ⟨hh, hb⟩ := s.accepts_iff.1 ha
      exact .inr ⟨t.accepts_iff.2 (by simp [← ht, hb, hh]), hin' ▸ hcmd hb⟩
  obtain ⟨u, hu, hframe⟩ := step_executes_mbr hx (hin' ▸ hk)
  refine ⟨u, by rw [State.run_succ 1 hstep, State.run_succ 0 hu, State.run_zero], ?_⟩
  simpa [← ht] using hframe

/-- A Fetch, a Decode and an Execute, with any edits on their edges, run the word that stood at PC. -/
theorem run_three_of_fetches {s : State} {i j k : EdgeInputs} {rest : List EdgeInputs}
    (hp : s.pending = i :: j :: k :: rest) (hi : i.quiet = true) (hj : j.quiet = true) (hk : k.quiet = true)
    (hf : s.Fetches) (hcmd : s.busy = false → j.cmd = 2#3 ∧ k.cmd = 3#3) :
    ∃ u, s.run 3 = .next u ∧ u.mbr = s.imem.fetchRead s.pc ∧ u.ir = s.imem.fetchRead s.pc ∧
      u.acc = wordAcc (s.imem.fetchRead s.pc) s.acc ∧ u.pc = wordPc (s.imem.fetchRead s.pc) s.pc ∧
      u.halted = (s.halted || decide (opField (s.imem.fetchRead s.pc) = 5#3)) := by
  have hin : s.nextInputs = i := by simp [State.nextInputs, hp]
  have hstep := step_of_fetches hf (hin ▸ hi)
  generalize ht : (s.popped.fetchStage.withRcPos (if s.busy then .d else s.rcPos)).editPort s.nextInputs = t at hstep
  have hp' : t.pending = j :: k :: rest := by simp [← ht, hp]
  have hd : t.Decodes := by
    rcases hf with ⟨hb, _, _, hh⟩ | ⟨ha, _⟩
    · exact .inl (by simp [← ht, hb, hh])
    · obtain ⟨hh, hb⟩ := s.accepts_iff.1 ha
      exact .inr ⟨t.accepts_iff.2 (by simp [← ht, hb, hh]), by simpa [State.nextInputs, hp'] using (hcmd hb).1⟩
  obtain ⟨u, hu, hframe⟩ := run_two_of_decodes hp' hj hk hd fun hb => (hcmd (by simpa [← ht] using hb)).2
  refine ⟨u, by rw [State.run_succ 2 hstep, hu], ?_⟩
  simpa [← ht] using hframe

/-- An edit alone on one edge and an EXECUTE by hand on the next: Execute from the edited state, and nothing besides. -/
theorem run_two_edit_execute {s : State} {i j : EdgeInputs} {rest : List EdgeInputs} (hp : s.pending = i :: j :: rest)
    (ha : s.accepts = true) (hi : i.quiet = true) (hci : i.cmd = 0#3) (hj : j.commandOnly = true) (hcj : j.cmd = 3#3) :
    step s = .next (s.popped.editPort i) ∧
      s.run 2 = .next (wordResult s.mbr { s with imem := (s.popped.editPort i).imem, pending := rest }) := by
  have hin : s.nextInputs = i := by simp [State.nextInputs, hp]
  have hstep : step s = .next (s.popped.editPort i) := hin ▸ step_of_no_command ha (hin ▸ hci) (hin ▸ hi)
  obtain ⟨hh, hb⟩ := s.accepts_iff.1 ha
  generalize ht : s.popped.editPort i = t at hstep
  have hin' : t.nextInputs = j := by simp [State.nextInputs, ← ht, hp]
  have hx : t.Executes := .inr ⟨t.accepts_iff.2 (by simp [← ht, hb, hh]), hin' ▸ hcj⟩
  have hexec := step_of_executes hx (hin' ▸ EdgeInputs.quiet_of_commandOnly hj)
  have htb : t.busy = false := by simp [← ht, hb]
  have hpopped : t.popped = { s with imem := t.imem, pending := rest } := by
    rw [← ht, editPort_eq, State.popped, State.popped, hp]
    rfl
  obtain ⟨_, _, hjw⟩ := j.commandOnly_iff.1 hj
  rw [htb, if_neg (by simp), hin', editPort_of_not_memWe hjw, hpopped, show t.mbr = s.mbr by simp [← ht]] at hexec
  exact ⟨hstep, by rw [State.run_succ 1 hstep, State.run_succ 0 hexec, State.run_zero]⟩

/-! ### The Fetches of an edited slot (rules R64, R65) -/

/-- A Fetch from a PC in range reads the slot at PC. -/
theorem Memory.fetchRead_of_toNat_eq (m : Memory) {pc : Word} {a : SlotAddr} (h : pc.toNat = a.toNat) :
    m.fetchRead pc = m.readSlot a := by
  have ha : a.toNat < 16 := a.isLt
  have hpc : pc.setWidth 4 = a := BitVec.eq_of_toNat_eq (by rw [BitVec.toNat_setWidth]; omega)
  rw [Memory.fetchRead, if_pos (by rw [Config.addrMax]; omega), hpc]

/-- A Fetch, with any edit on its edge, gets the word that stood at the slot before the edge. -/
theorem step_fetches_readSlot {s : State} {a : SlotAddr} (hf : s.Fetches) (hq : s.nextInputs.quiet = true)
    (hpc : s.pc.toNat = a.toNat) : ∃ t, step s = .next t ∧ t.mbr = s.imem.readSlot a :=
  ⟨_, step_of_fetches hf hq, by simp [Memory.fetchRead_of_toNat_eq s.imem hpc]⟩

/-- After an edge with an edit the slot holds the new word. -/
theorem step_readSlot_edited {s t : State} (h : step s = .next t) (hp : s.nextInputs.por = false)
    (hw : s.nextInputs.memWe = true) : t.imem.readSlot s.nextInputs.memWaddr = s.nextInputs.memWdata := by
  rw [step_imem h hp, if_pos hw, Memory.readSlot_writeSlot, if_pos rfl]

/-- A sample that neither powers on nor edits the slot `a`. -/
def EdgeInputs.Spares (i : EdgeInputs) (a : SlotAddr) : Prop := i.por = false ∧ (i.memWe = true → i.memWaddr ≠ a)

/-- An edge whose sample spares a slot leaves it. -/
theorem step_readSlot_of_spares {s t : State} {a : SlotAddr} (h : step s = .next t) (hs : s.nextInputs.Spares a) :
    t.imem.readSlot a = s.imem.readSlot a := by
  obtain ⟨hp, hw⟩ := hs
  rw [step_imem h hp]
  split
  · rename_i hwe
    rw [Memory.readSlot_writeSlot, if_neg (hw hwe).symm]
  · rfl

/-- When the first of the coming samples spare a slot, so does the next edge's, be it one of them or the idle one. -/
theorem nextInputs_spares {s : State} {a : SlotAddr} {n : Nat} (h : ∀ j ∈ s.pending.take (n + 1), j.Spares a) :
    s.nextInputs.Spares a := by
  unfold State.nextInputs
  cases hp : s.pending with
  | nil => exact ⟨rfl, fun hw => absurd hw (by decide)⟩
  | cons j rest => exact h j (by simp [hp])

/-- A run whose samples all spare a slot leaves it. -/
theorem run_readSlot_of_spares (n : Nat) {s : State} {a : SlotAddr} (h : ∀ j ∈ s.pending.take n, j.Spares a) :
    ∃ t, s.run n = .next t ∧ t.imem.readSlot a = s.imem.readSlot a := by
  induction n generalizing s with
  | zero => exact ⟨s, rfl, rfl⟩
  | succ n ih =>
    obtain ⟨u, hu⟩ := step_answers s
    have hrest : ∀ j ∈ u.pending.take n, j.Spares a := by
      intro j hj
      rw [step_pending hu] at hj
      refine h j ?_
      cases hp : s.pending with
      | nil => simp [hp] at hj
      | cons i rest => exact List.mem_cons_of_mem i (by simpa [hp] using hj)
    obtain ⟨t, ht, hread⟩ := ih hrest
    exact ⟨t, by rw [State.run_succ n hu, ht], by rw [hread, step_readSlot_of_spares hu (nextInputs_spares h)]⟩

/-- Settles O34: the Fetch reads before the edit of its edge writes. -/
theorem sameEdgeFetchReadsOldWord : Obligations.SameEdgeFetchReadsOldWord := by
  intro s hf hq hw hpc
  obtain ⟨t, ht, hmbr⟩ := step_fetches_readSlot hf hq hpc
  obtain ⟨hp, _⟩ := s.nextInputs.quiet_iff.1 hq
  exact ⟨t, ht, hmbr, step_readSlot_edited ht hp hw⟩

/-- Settles O35: the clauses are the edge's effect on MBR and IR, the cycles from Fetch and from Decode, the edit before an
EXECUTE, and the slot's word kept up to the next Fetch. -/
theorem editSeenAtNextFetchOnly : Obligations.EditSeenAtNextFetchOnly := by
  refine ⟨fun s t h hq => ?registers, fun s i j k rest hp hi hj hk hh hway => ?cycle,
    fun s j k rest hp hj hk hb hr hh => ?loopAtD, fun s i j rest ha hi _ hp hj hci hcj => ?editThenExecute,
    fun n s i rest hp hpor hw hspares => ?nextFetch⟩
  case registers =>
    obtain ⟨u, hu, e⟩ := step_quiet_action hq
    obtain rfl : u.editPort s.nextInputs = t := by rw [e] at h; injection h
    refine ⟨fun hf => ?_, fun hd => ?_, fun hd => ?_⟩
    · simpa using hu.fetches_or_mbr_eq.resolve_left hf
    · simpa using hu.decodes_or_ir_eq.resolve_left hd
    · rw [step_of_decodes hd hq] at h
      injection h with h
      simp [← h]
  case cycle =>
    have hin : s.nextInputs = i := by simp [State.nextInputs, hp]
    have hf : s.Fetches := by
      rcases hway with ⟨hb, hci, _, _⟩ | ⟨hb, hr, hc⟩
      · exact .inr ⟨s.accepts_iff.2 ⟨hh, hb⟩, hin ▸ hci⟩
      · exact .inl ⟨hb, hr, hc, hh⟩
    have hcmd : s.busy = false → j.cmd = 2#3 ∧ k.cmd = 3#3 := by
      rcases hway with ⟨_, _, hcj, hck⟩ | ⟨hb, _, _⟩
      · exact fun _ => ⟨hcj, hck⟩
      · exact fun hb' => absurd hb' (by simp [hb])
    obtain ⟨u, hu, hframe⟩ := run_three_of_fetches hp hi hj hk hf hcmd
    exact ⟨_, u, exec_decodeWord _ s, hu, hframe⟩
  case loopAtD =>
    obtain ⟨u, hu, hframe⟩ :=
      run_two_of_decodes hp hj hk (.inl ⟨hb, hr, hh⟩) fun hb' => absurd hb' (by simp [hb])
    exact ⟨_, u, exec_decodeWord _ s, hu, hframe⟩
  case editThenExecute =>
    obtain ⟨hstep, hrun⟩ := run_two_edit_execute hp ha hi hci hj hcj
    exact ⟨_, _, _, hstep, by simp, by simp, exec_decodeWord _ _, hrun, rfl⟩
  case nextFetch =>
    have hin : s.nextInputs = i := by simp [State.nextInputs, hp]
    obtain ⟨u, hu⟩ := step_answers s
    have hwritten : u.imem.readSlot i.memWaddr = i.memWdata := by
      simpa [hin] using step_readSlot_edited hu (hin ▸ hpor) (hin ▸ hw)
    have hpending : u.pending = rest := by simp [step_pending hu, hp]
    obtain ⟨t, ht, hread⟩ := run_readSlot_of_spares n (s := u) (a := i.memWaddr) (hpending ▸ hspares)
    rw [hwritten] at hread
    refine ⟨t, by rw [State.run_succ n hu, ht], hread, fun hf hq hpc => ?_⟩
    exact hread ▸ step_fetches_readSlot hf hq hpc

end Sys2Proof.Machine
end

section
/-! PROOFS. The family of 30_encoding.md: the fields of format `I` (rule R71), and what `Assemble` reads of a text: its
mnemonic (rule R81), its literal (rule R82) and the literals it refuses (rule R87). -/

namespace Sys2Proof

/-! ### Format `I` and its three fields (rule R71) -/

/-- The bits of a word in format `I`: `imm` from bit 0, `p` at bit 12, `op` from bit 13. -/
theorem getLsbD_formatI (op : Opcode) (p : Bool) (imm : Imm) (i : Nat) :
    (formatI op p imm).getLsbD i = if i < 12 then imm.getLsbD i else if i = 12 then p else op.getLsbD (i - 13) := by
  simp only [formatI, BitVec.getLsbD_or, BitVec.getLsbD_shiftLeft, BitVec.getLsbD_setWidth, BitVec.getLsbD_ofBool]
  rcases Nat.lt_trichotomy i 12 with h | rfl | h
  · simp [h, show i < 13 by omega, show i < 16 by omega]
  · simp
  · have himm : imm.getLsbD i = false := BitVec.getLsbD_of_ge imm i (by omega)
    have hop : 16 ≤ i → op.getLsbD (i - 13) = false := fun h16 => BitVec.getLsbD_of_ge op _ (by omega)
    by_cases h16 : i < 16
    · simp [himm, h16, show i - 13 < 16 by omega, show ¬ i < 12 by omega, show ¬ i < 13 by omega,
        show i ≠ 12 by omega, show i - 12 ≠ 0 by omega]
    · simp [himm, h16, hop (by omega), show ¬ i < 12 by omega, show i ≠ 12 by omega]

theorem pField_formatI (op : Opcode) (p : Bool) (imm : Imm) : pField (formatI op p imm) = p :=
  getLsbD_formatI op p imm 12

theorem immField_formatI (op : Opcode) (p : Bool) (imm : Imm) : immField (formatI op p imm) = imm := by
  apply BitVec.eq_of_getLsbD_eq
  intro i hi
  simp [immField, getLsbD_formatI, hi]

/-- The three fields of a word, put together again, are the word. -/
theorem formatI_fields (w : Word) : formatI (opField w) (pField w) (immField w) = w := by
  apply BitVec.eq_of_getLsbD_eq
  intro i hi
  rw [getLsbD_formatI]
  split_ifs with h h12
  · simp [immField, h]
  · rw [pField, h12]
  · simp [opField, show i - 13 < 3 by omega, show 13 + (i - 13) = i by omega]

theorem toNat_opField (w : Word) : (opField w).toNat = w.toNat / 8192 := by
  have hw := w.isLt
  rw [opField, BitVec.extractLsb'_toNat, Nat.shiftRight_eq_div_pow]
  omega

theorem pField_eq_decide (w : Word) : pField w = decide (w.toNat / 4096 % 2 = 1) :=
  Nat.testBit_eq_decide_div_mod_eq

theorem toNat_immField (w : Word) : (immField w).toNat = w.toNat % 4096 := by
  rw [immField, BitVec.extractLsb'_toNat, Nat.shiftRight_zero]

/-- Settles O3: each field as a number, and the word put together from them by `formatI_fields`. -/
theorem formatIFieldsAndValue : Obligations.FormatIFieldsAndValue := fun w =>
  ⟨toNat_opField w, pField_eq_decide w, toNat_immField w, (formatI_fields w).symm⟩

end Sys2Proof

namespace Sys2Proof.Machine

/-! ### The word of a decoded text, by its opcode -/

/-- MOV, ADD, SUB and JMP assemble their operand under the opcode of the tag. -/
theorem assembleSource_of_mem {d : SourceInstr} (h : d.tag ∈ operandTags) :
    assembleSource d = assembleOperand (opcodeOfTag d.tag) d.operand := by
  obtain ⟨tag, operand⟩ := d
  simp only [operandTags, List.mem_cons, List.not_mem_nil, or_false] at h
  rcases h with rfl | rfl | rfl | rfl <;> rfl

/-- Every other tag assembles to its opcode alone, whatever the operand. -/
theorem assembleSource_of_not_mem {d : SourceInstr} (h : d.tag ∉ operandTags) :
    assembleSource d = .ok (formatI (opcodeOfTag d.tag) false 0#12) := by
  simp only [operandTags, List.mem_cons, List.not_mem_nil, or_false, not_or] at h
  obtain ⟨hmov, hadd, hsub, hjmp⟩ := h
  unfold assembleSource opcodeOfTag
  rw [if_neg hmov, if_neg hadd, if_neg hsub, if_neg hjmp, if_neg hmov, if_neg hadd, if_neg hsub, if_neg hjmp]
  split_ifs <;> rfl

/-- An accepted text has the opcode of its tag. -/
theorem opField_of_assembleSource {d : SourceInstr} {w : Word} (h : assembleSource d = .ok w) :
    opField w = opcodeOfTag d.tag := by
  by_cases ht : d.tag ∈ operandTags
  · rw [assembleSource_of_mem ht] at h
    rcases assembleOperand_ok h with ⟨_, rfl⟩ | ⟨_, _, _, _, rfl⟩ <;> exact Laws.opField_formatI _ _ _
  · rw [assembleSource_of_not_mem ht] at h
    injection h with h
    exact h ▸ Laws.opField_formatI _ _ _

/-! ### The literals that are refused (rule R87) -/

theorem operandInRange_iff (n : Int) : operandInRange n = true ↔ -2048 ≤ n ∧ n ≤ 2047 := by
  simp [operandInRange]

theorem assembleOperand_of_in_range (op : Opcode) {n : Int} (h : -2048 ≤ n ∧ n ≤ 2047) :
    assembleOperand op (some n) = .ok (formatI op true (BitVec.ofInt 12 n)) :=
  if_pos ((operandInRange_iff n).2 h)

theorem assembleOperand_of_out_of_range (op : Opcode) {n : Int} (h : ¬ (-2048 ≤ n ∧ n ≤ 2047)) :
    assembleOperand op (some n) = .error .immediateOutOfRange :=
  if_neg (mt (operandInRange_iff n).1 h)

theorem assembleOperand_error_iff (op : Opcode) (o : Option Int) (r : AsmRefusal) :
    assembleOperand op o = .error r ↔ r = .immediateOutOfRange ∧ ∃ n, o = some n ∧ (n < -2048 ∨ 2047 < n) := by
  cases o with
  | none => simp [assembleOperand]
  | some n =>
    by_cases h : -2048 ≤ n ∧ n ≤ 2047
    · have hn : ¬ (n < -2048 ∨ 2047 < n) := by omega
      simp [assembleOperand_of_in_range op h, hn]
    · have hn : n < -2048 ∨ 2047 < n := by omega
      simp [assembleOperand_of_out_of_range op h, hn, eq_comm]

/-- Everything `Assemble` refuses. -/
theorem assembleSource_error_iff (d : SourceInstr) (r : AsmRefusal) :
    assembleSource d = .error r ↔
      r = .immediateOutOfRange ∧ d.tag ∈ operandTags ∧ ∃ n, d.operand = some n ∧ (n < -2048 ∨ 2047 < n) := by
  by_cases ht : d.tag ∈ operandTags
  · simp [assembleSource_of_mem ht, assembleOperand_error_iff, ht]
  · simp [assembleSource_of_not_mem ht, ht]

theorem takesOperand_of_mem {tag : Text} (h : tag ∈ operandTags) :
    (classOf (opcodeOfTag tag)).takesOperand = true := by
  simp only [operandTags, List.mem_cons, List.not_mem_nil, or_false] at h
  rcases h with rfl | rfl | rfl | rfl <;> rfl

/-- An operand in range survives its 12 bits. -/
theorem operand_formatI_ofInt (op : Opcode) (p : Bool) {n : Int} (h : -2048 ≤ n ∧ n ≤ 2047) :
    (decodeRecord (formatI op p (BitVec.ofInt 12 n))).operand = n := by
  change (immField (formatI op p (BitVec.ofInt 12 n))).toInt = n
  rw [immField_formatI, BitVec.toInt_ofInt]
  exact Int.bmod_eq_of_le (by omega) (by omega)

theorem hasOperand_formatI (op : Opcode) (p : Bool) (imm : Imm) :
    (decodeRecord (formatI op p imm)).hasOperand = (p && (classOf op).takesOperand) := by
  simp only [decodeRecord, pField_formatI, Laws.opField_formatI]

/-- The loader hands on what `Assemble` refuses; no state is answered, so nothing is written. -/
theorem setMemoryText_of_refused (s : State) {address : Int} {text : Option Text} {r : AsmRefusal}
    (h0 : 0 ≤ address) (h15 : address ≤ 15) (hr : assemble text = .error r) :
    s.setMemoryText address text = .error r := by
  rw [State.setMemoryText, if_pos ((slotInRange_iff address).2 ⟨h0, h15⟩), hr]

/-- Settles O56: `assembleSource_error_iff`, the loader's rule, and the operand read back from its field. -/
theorem assembleRefusesOutOfRangeLiterals : Obligations.AssembleRefusesOutOfRangeLiterals := by
  refine fun text => ⟨assembleSource_error_iff (sourceDecode text), fun s a r => setMemoryText_of_refused s,
    fun n ht ho hlo hhi => ?_⟩
  refine ⟨formatI (opcodeOfTag (sourceDecode text).tag) true (BitVec.ofInt 12 n), ?_,
    operand_formatI_ofInt _ _ ⟨hlo, hhi⟩, ?_⟩
  · rw [assemble, assembleSource_of_mem ht, ho, assembleOperand_of_in_range _ ⟨hlo, hhi⟩]
  · rw [hasOperand_formatI, takesOperand_of_mem ht, Bool.and_self]

/-! ### Upper-casing (rule R81) -/

theorem upperChar_of_lower {c : Char} (h : 97 ≤ c.toNat ∧ c.toNat ≤ 122) : (upperChar c).toNat = c.toNat - 32 := by
  rw [upperChar, if_pos h, Char.toNat_ofNat, if_pos (.inl (by omega))]

theorem upperChar_of_not_lower {c : Char} (h : ¬ (97 ≤ c.toNat ∧ c.toNat ≤ 122)) : upperChar c = c := if_neg h

/-- Upper-casing moves `a`-`z` onto `A`-`Z` and every other character nowhere. -/
theorem upperChar_cases (c : Char) :
    (97 ≤ c.toNat ∧ c.toNat ≤ 122 ∧ 65 ≤ (upperChar c).toNat ∧ (upperChar c).toNat ≤ 90) ∨ upperChar c = c := by
  by_cases h : 97 ≤ c.toNat ∧ c.toNat ≤ 122
  · have := upperChar_of_lower h
    exact .inl (by omega)
  · exact .inr (upperChar_of_not_lower h)

theorem upperChar_upperChar (c : Char) : upperChar (upperChar c) = upperChar c := by
  rcases upperChar_cases c with h | h
  · exact upperChar_of_not_lower (by omega)
  · rw [h, h]

/-- No letter is whitespace. -/
theorem isSpace_upperChar (c : Char) : isSpace (upperChar c) = isSpace c := by
  rcases upperChar_cases c with h | h
  · rw [Bool.eq_iff_iff]
    simp only [isSpace, Bool.or_eq_true, Bool.and_eq_true, decide_eq_true_eq]
    omega
  · rw [h]

/-- No letter is a digit. -/
theorem digitValue_upperChar (c : Char) : digitValue (upperChar c) = digitValue c := by
  rcases upperChar_cases c with h | h
  · rw [digitValue, digitValue, if_neg (by omega), if_neg (by omega)]
  · rw [h]

/-- No letter is a sign, nor any other character below `A`. -/
theorem upperChar_eq_iff {c d : Char} (hd : d.toNat < 65) : upperChar c = d ↔ c = d := by
  rcases upperChar_cases c with h | h
  · have hu : upperChar c ≠ d := by rintro rfl; omega
    have hc : c ≠ d := by rintro rfl; omega
    exact iff_of_false hu hc
  · rw [h]

/-! ### A text in upper case is read alike (rules R80 to R82) -/

theorem consToFirst_map_upperText (c : Char) (ps : List Text) :
    consToFirst (upperChar c) (ps.map upperText) = (consToFirst c ps).map upperText := by
  cases ps <;> rfl

/-- A text and the same text in upper case are cut at the same places. -/
theorem pieces_upperText (inRun : Bool) (t : Text) : pieces inRun (upperText t) = (pieces inRun t).map upperText := by
  induction t generalizing inRun with
  | nil => rfl
  | cons c cs ih =>
    change pieces inRun (upperChar c :: upperText cs) = _
    simp only [pieces, isSpace_upperChar, ih, consToFirst_map_upperText]
    split_ifs <;> rfl

theorem token0_upperText (t : Text) : token0 (upperText t) = upperText (token0 t) := by
  rw [token0, token0, pieces_upperText]
  cases pieces false t <;> rfl

theorem token1_upperText (t : Text) : token1 (upperText t) = (token1 t).map upperText := by
  rw [token1, token1, pieces_upperText, List.getElem?_map]

theorem upperText_upperText (t : Text) : upperText (upperText t) = upperText t := by
  simp [upperText, upperChar_upperChar]

theorem digitsFrom_upperText (n : Nat) (t : Text) : digitsFrom n (upperText t) = digitsFrom n t := by
  induction t generalizing n with
  | nil => rfl
  | cons c cs ih =>
    change digitsFrom n (upperChar c :: upperText cs) = _
    simp only [digitsFrom, digitValue_upperChar, ih]

theorem parseDigits_upperText (t : Text) : parseDigits (upperText t) = parseDigits t := by
  cases t with
  | nil => rfl
  | cons c cs => exact digitsFrom_upperText 0 (c :: cs)

theorem parseInt_upperText (t : Text) : parseInt (upperText t) = parseInt t := by
  cases t with
  | nil => rfl
  | cons c cs =>
    have whole : parseDigits (upperChar c :: upperText cs) = parseDigits (c :: cs) := parseDigits_upperText (c :: cs)
    change parseInt (upperChar c :: upperText cs) = _
    simp only [parseInt, upperChar_eq_iff (d := '+') (by decide), upperChar_eq_iff (d := '-') (by decide),
      parseDigits_upperText, whole]

theorem parseOperand_upperText (t : Text) : parseOperand (upperText t) = parseOperand t := by
  rw [parseOperand, parseOperand, token1_upperText]
  cases token1 t with
  | none => rfl
  | some tok => exact parseInt_upperText tok

theorem sourceDecode_upperText (t : Text) : sourceDecode (some (upperText t)) = sourceDecode (some t) := by
  cases t with
  | nil => rfl
  | cons c cs =>
    rw [sourceDecode_of_ne_nil (t := upperText (c :: cs)) (List.cons_ne_nil _ _),
      sourceDecode_of_ne_nil (List.cons_ne_nil _ _), token0_upperText, upperText_upperText, parseOperand_upperText]

/-- Settles O57: the decoder does not see the case, the opcode is that of the tag, and what upper-casing does to a character. -/
theorem assembleIgnoresCase : Obligations.AssembleIgnoresCase := by
  refine ⟨fun text => ?same, fun text w hne hw => ?opcode,
    fun c => ⟨fun h h' => upperChar_of_lower ⟨h, h'⟩, fun h => upperChar_of_not_lower (by omega)⟩⟩
  case same => rw [assemble, assemble, sourceDecode_upperText]
  case opcode =>
    rw [assemble, sourceDecode_of_ne_nil hne] at hw
    exact opField_of_assembleSource hw

/-! ### Literals (rule R82) -/

/-- Decimal digits as characters. -/
def digitsText (ds : List (Fin 10)) : Text := ds.map fun d => digitChar d.val

/-- The number that decimal digits continue from `n`. -/
def decimalFrom (n : Nat) (ds : List (Fin 10)) : Nat := ds.foldl (fun n d => 10 * n + d.val) n

/-- The digits are the characters `0` to `9`, and nothing else is one. -/
theorem digitValue_eq_some_iff (c : Char) (v : Nat) : digitValue c = some v ↔ v < 10 ∧ c = digitChar v := by
  refine ⟨fun h => ?_, fun ⟨hv, hc⟩ => hc ▸ digitValue_digitChar hv⟩
  rw [digitValue] at h
  split_ifs at h with hc
  injection h with h
  refine ⟨by omega, ?_⟩
  rw [digitChar, show 0x30 + v = c.toNat by omega, Char.ofNat_toNat]

theorem digitsFrom_digitsText (n : Nat) (ds : List (Fin 10)) : digitsFrom n (digitsText ds) = some (decimalFrom n ds) := by
  induction ds generalizing n with
  | nil => rfl
  | cons d ds ih =>
    change digitsFrom n (digitChar d.val :: digitsText ds) = _
    simp only [digitsFrom, digitValue_digitChar d.isLt]
    exact ih _

/-- Only digits are read as a number. -/
theorem eq_digitsText_of_digitsFrom {n m : Nat} {t : Text} (h : digitsFrom n t = some m) : ∃ ds, t = digitsText ds := by
  induction t generalizing n with
  | nil => exact ⟨[], rfl⟩
  | cons c cs ih =>
    rw [digitsFrom] at h
    split at h
    · rename_i v hv
      obtain ⟨hlt, rfl⟩ := (digitValue_eq_some_iff c v).1 hv
      obtain ⟨ds, rfl⟩ := ih h
      exact ⟨⟨v, hlt⟩ :: ds, rfl⟩
    · cases h

theorem parseDigits_digitsText {ds : List (Fin 10)} (h : ds ≠ []) :
    parseDigits (digitsText ds) = some (decimalFrom 0 ds) := by
  cases ds with
  | nil => exact absurd rfl h
  | cons d ds => exact digitsFrom_digitsText 0 (d :: ds)

theorem eq_digitsText_of_parseDigits {t : Text} {n : Nat} (h : parseDigits t = some n) :
    ∃ ds, ds ≠ [] ∧ t = digitsText ds := by
  cases t with
  | nil => cases h
  | cons c cs =>
    obtain ⟨ds, hds⟩ := eq_digitsText_of_digitsFrom (n := 0) h
    have hne : ds ≠ [] := by
      rintro rfl
      cases hds
    exact ⟨ds, hne, hds⟩

theorem parseInt_plus (t : Text) : parseInt ('+' :: t) = (parseDigits t).map fun n : Nat => (n : Int) := rfl

theorem parseInt_minus (t : Text) : parseInt ('-' :: t) = (parseDigits t).map fun n : Nat => -(n : Int) := rfl

/-- Digits begin with no sign. -/
theorem parseInt_digitsText {ds : List (Fin 10)} (h : ds ≠ []) : parseInt (digitsText ds) = some (decimalFrom 0 ds : Int) := by
  have hp := parseDigits_digitsText h
  cases ds with
  | nil => exact absurd rfl h
  | cons d ds =>
    obtain ⟨_, hplus, hminus⟩ := digitChar_plain d.val d.isLt
    change parseDigits (digitChar d.val :: digitsText ds) = _ at hp
    change parseInt (digitChar d.val :: digitsText ds) = _
    rw [parseInt, if_neg hplus, if_neg hminus, hp]
    rfl

/-- Everything that parses: digits, with or without a sign in front. -/
theorem eq_sign_append_of_parseInt {tok : Text} {n : Int} (h : parseInt tok = some n) :
    ∃ (sign : Text) (ds : List (Fin 10)), (sign = [] ∨ sign = ['+'] ∨ sign = ['-']) ∧ ds ≠ [] ∧
      tok = sign ++ digitsText ds := by
  cases tok with
  | nil => cases h
  | cons c cs =>
    rw [parseInt] at h
    have digits {f : Nat → Int} {t : Text} (ht : (parseDigits t).map f = some n) : ∃ ds, ds ≠ [] ∧ t = digitsText ds :=
      have ⟨_, hm, _⟩ := Option.map_eq_some_iff.1 ht
      eq_digitsText_of_parseDigits hm
    split_ifs at h with hplus hminus
    · obtain ⟨ds, hne, rfl⟩ := digits h
      exact ⟨['+'], ds, .inr (.inl rfl), hne, hplus ▸ rfl⟩
    · obtain ⟨ds, hne, rfl⟩ := digits h
      exact ⟨['-'], ds, .inr (.inr rfl), hne, hminus ▸ rfl⟩
    · obtain ⟨ds, hne, hds⟩ := digits h
      exact ⟨[], ds, .inl rfl, hne, hds⟩

/-- Settles O58: the value of digits behind each sign, `eq_sign_append_of_parseInt`, and the operand as the second token's. -/
theorem literalsAreSignedDecimals : Obligations.LiteralsAreSignedDecimals := by
  refine ⟨fun ds hne => ⟨parseInt_digitsText hne, ?plus, ?minus⟩, fun tok n => eq_sign_append_of_parseInt,
    fun text h => ?absent, fun text tok h => ?second⟩
  case plus =>
    change parseInt ('+' :: digitsText ds) = some (decimalFrom 0 ds : Int)
    rw [parseInt_plus, parseDigits_digitsText hne, Option.map_some]
  case minus =>
    change parseInt ('-' :: digitsText ds) = some (-(decimalFrom 0 ds : Int))
    rw [parseInt_minus, parseDigits_digitsText hne, Option.map_some]
  case absent => rw [parseOperand, h, Option.bind_none]
  case second => rw [parseOperand, h, Option.bind_some]

end Sys2Proof.Machine
end

section
/-! PROOFS. The family of 40_decoder.md: the record of `DecodeWord` (rule R101), its fields as numbers. -/

namespace Sys2Proof

/-- The classes with an operand are those of the opcode numbers 1 to 4 (rule R101). -/
theorem takesOperand_classOf_iff (op : Opcode) :
    (classOf op).takesOperand = true ↔ 1 ≤ op.toNat ∧ op.toNat ≤ 4 := by
  revert op
  decide

/-- `has_operand` of a word: the operand bit, and an opcode number from 1 to 4. -/
theorem hasOperand_decodeRecord_iff (w : Word) :
    (decodeRecord w).hasOperand = true ↔
      w.toNat / 4096 % 2 = 1 ∧ 1 ≤ w.toNat / 8192 ∧ w.toNat / 8192 ≤ 4 := by
  change (pField w && (classOf (opField w)).takesOperand) = true ↔ _
  rw [Bool.and_eq_true, takesOperand_classOf_iff, toNat_opField, pField_eq_decide, decide_eq_true_iff]

/-- The two's-complement value of a 12-bit operand: the upper half of the range stands for the negative numbers. -/
theorem toInt_imm (imm : Imm) :
    imm.toInt = if imm.toNat < 2048 then (imm.toNat : Int) else (imm.toNat : Int) - 4096 := by
  rw [BitVec.toInt_eq_toNat_cond]
  split <;> split <;> omega

/-- Settles O4: the fields of format `I` as numbers, the class by the eight opcode numbers, `hasOperand_decodeRecord_iff` and
`toInt_imm`. -/
theorem decodeWordRecord : Obligations.DecodeWordRecord := by
  refine fun w => ⟨toNat_opField w, pField_eq_decide w, toNat_immField w, ?cls, hasOperand_decodeRecord_iff w, ?operand⟩
  case cls =>
    rw [← toNat_opField w]
    change classOf (opField w) = _
    rcases opField_cases w with h | h | h | h | h | h | h | h <;> rw [h] <;> rfl
  case operand =>
    rw [← toNat_immField w]
    exact toInt_imm (immField w)

end Sys2Proof
end

section
/-! PROOFS. The family of 41_cycle_fsm.md: the three stage transitions (rules R117 to R120), by an accepted host command and by
the sequencer, and what a command that is not accepted does (rules R116, R122). -/

namespace Sys2Proof.Machine

/-! ### Execute (rules R119, R120) -/

/-- HLT is the class of opcode number 5 alone. -/
theorem classOf_eq_hlt_iff (op : Opcode) : classOf op = .hlt ↔ op = 5#3 := by
  revert op
  decide

/-- Execute of a word writes ACC, PC, `halted`, `stage` and the highlight only. -/
theorem wordResult_frame (w : Word) (s : State) : ExecuteFrame s (wordResult w s) where
  ir := rfl
  marV := rfl
  mar := rfl
  mbr := rfl
  running := rfl
  busy := rfl
  cancel := rfl
  rcPos := rfl
  pending := rfl
  bytes _ := rfl
  slots _ := rfl
  stage := rfl
  hlV := rfl
  hlAddr := rfl

/-- Settles O21: Execute answers `wordResult` of MBR, whose ACC and PC are the operation table's. -/
theorem executeFollowsOpTable : Obligations.ExecuteFollowsOpTable := by
  intro s
  have halts : (wordResult s.mbr s).halted = (s.halted || decide ((decodeRecord s.mbr).cls = .hlt)) := by
    simp [decodeRecord, classOf_eq_hlt_iff]
  exact ⟨wordResult s.mbr s, executeStage_eq s, exec_decodeWord s.mbr s,
    (opTable_decodeRecord s.mbr s.acc s.pc).symm, halts, wordResult_frame s.mbr s⟩

/-! ### The edge without an edit -/

/-- Without a strobe the edit after an action of the edge does nothing. -/
theorem andThen_editPort_of_not_memWe (o : Host.Outcome State Fault Refusal) {i : EdgeInputs} (h : i.memWe = false) :
    andThen o (fun t => .next (t.editPort i)) = o := by
  cases o with
  | next t => rw [andThen_next, editPort_of_not_memWe h]
  | fault | refused => rfl

/-- A sample without power-on, reset and edit: the step is the sequencer's step or the host's command. -/
theorem step_of_commandOnly {s : State} (h : s.nextInputs.commandOnly = true) :
    step s = if s.busy = true then s.popped.seqStep else s.popped.hostCommand (commandOf s.nextInputs.cmd) := by
  obtain ⟨_, _, hw⟩ := s.nextInputs.commandOnly_iff.1 h
  rw [step_of_quiet (EdgeInputs.quiet_of_commandOnly h), andThen_editPort_of_not_memWe _ hw]

/-- The step while a loop is in flight. -/
theorem step_of_busy {s : State} (hb : s.busy = true) (h : s.nextInputs.commandOnly = true) :
    step s = s.popped.seqStep := by
  rw [step_of_commandOnly h, if_pos hb]

/-- The step on a command when no loop is in flight. -/
theorem step_of_asks {s : State} {c : BitVec 3} (hb : s.busy = false) (h : s.asks c) :
    step s = s.popped.hostCommand (commandOf c) := by
  obtain ⟨hc, honly⟩ := h
  rw [step_of_commandOnly honly, if_neg (by simp [hb]), hc]

/-! ### Accepted stage commands (rules R116 to R119) -/

theorem step_of_asks_fetch {s : State} (ha : s.accepts = true) (h : s.asks 1#3) : step s = .next s.popped.fetchStage := by
  obtain ⟨hh, hb⟩ := s.accepts_iff.1 ha
  rw [step_of_asks hb h]
  exact if_neg (by simp [hh])

theorem step_of_asks_decode {s : State} (ha : s.accepts = true) (h : s.asks 2#3) : step s = .next s.popped.decodeStage := by
  obtain ⟨hh, hb⟩ := s.accepts_iff.1 ha
  rw [step_of_asks hb h]
  exact if_neg (by simp [hh])

theorem step_of_asks_execute {s : State} (ha : s.accepts = true) (h : s.asks 3#3) :
    step s = exec (decodeWord s.mbr) s.popped := by
  obtain ⟨hh, hb⟩ := s.accepts_iff.1 ha
  rw [step_of_asks hb h]
  exact if_neg (by simp [hh])

/-- A Fetch reads the slot at PC, or `NOP_WORD` when PC is above 15 (rule R52). -/
theorem Memory.fetchRead_eq (m : Memory) (pc : Word) :
    m.fetchRead pc = if pc.toNat ≤ 15 then m.readSlot (BitVec.ofNat 4 pc.toNat) else 0x0000#16 := by
  rw [BitVec.ofNat_toNat]
  rfl

/-- Settles O18: `step_of_asks_fetch`, and what a Fetch reads. -/
theorem fetchCommandEffect : Obligations.FetchCommandEffect := by
  intro s ha h
  rw [step_of_asks_fetch ha h, ← Memory.fetchRead_eq]
  rfl

/-- Settles O19: `step_of_asks_decode`, with the record update of a Decode written out. -/
theorem decodeCommandEffect : Obligations.DecodeCommandEffect :=
  fun _ ha h => step_of_asks_decode ha h

/-! ### Commands that are not accepted (rules R116, R122) -/

/-- The command port plays no part in the action of an edge when the core accepts no command. -/
theorem edgeAction_cmd_of_not_accepts {s : State} (h : s.accepts = false) (i : EdgeInputs) (c d : BitVec 3) :
    s.edgeAction { i with cmd := c } = s.edgeAction { i with cmd := d } := by
  cases hh : s.halted with
  | true => rw [edgeAction_of_halted hh, edgeAction_of_halted hh]
  | false =>
    have hb : s.busy = true := by simpa [State.accepts, hh] using h
    simp [State.edgeAction, hb]

/-- Samples that differ in the command alone give a core that accepts none the same step. -/
theorem step_cmd_of_not_accepts {s : State} (h : s.accepts = false) (i : EdgeInputs) (rest : List EdgeInputs)
    (c d : BitVec 3) :
    step { s with pending := { i with cmd := c } :: rest } = step { s with pending := { i with cmd := d } :: rest } := by
  change State.edge { s with pending := rest } { i with cmd := c } = State.edge { s with pending := rest } { i with cmd := d }
  rw [State.edge, State.edge, edgeAction_cmd_of_not_accepts (s := { s with pending := rest }) h i c d]
  rfl

/-- A halted core with no loop in flight only takes its sample. -/
theorem step_of_halted_free {s : State} (hh : s.halted = true) (hb : s.busy = false)
    (h : s.nextInputs.commandOnly = true) : step s = .next s.popped := by
  rw [step_of_commandOnly h, if_neg (by simp [hb]), hostCommand_of_halted (s := s.popped) hh]

/-! ### The sequencer's own transitions (rule R122) -/

/-- A halted loop is left at any of its three positions. -/
theorem seqStep_of_halted {s : State} (h : s.halted = true) : s.seqStep = .next s.loopExit := by
  cases hr : s.rcPos <;> simp [State.seqStep, hr, State.seqF, State.seqD, State.seqX, h]

/-- Step F of a loop that is neither halted nor cancelled. -/
theorem seqStep_fetch {s : State} (hh : s.halted = false) (hr : s.rcPos = .f) (hc : s.cancel = false) :
    s.seqStep = .next (s.fetchStage.withRcPos .d) := by
  simp [State.seqStep, hr, State.seqF, hh, hc]

/-- Step D of a loop that is not halted. -/
theorem seqStep_decode {s : State} (hh : s.halted = false) (hr : s.rcPos = .d) :
    s.seqStep = .next (s.decodeStage.withRcPos .x) := by
  simp [State.seqStep, hr, State.seqD, hh]

/-- Step X of a loop that is not halted: the Execute of MBR, then the checks that end the loop. -/
theorem seqStep_execute {s : State} (hh : s.halted = false) (hr : s.rcPos = .x) :
    s.seqStep = .next (wordResult s.mbr s).afterExecute := by
  simp [State.seqStep, hr, State.seqX, hh, executeStage_eq]

/-- Settles O24: the command port of a core that accepts nothing, the halted core, the three accepted commands, the gate
itself, and the sequencer's four cases. -/
theorem gatedCommandsAreDropped : Obligations.GatedCommandsAreDropped := by
  refine ⟨fun s i rest c h => step_cmd_of_not_accepts h i rest c 0#3,
    fun s i rest hh hb h => step_of_halted_free (s := { s with pending := i :: rest }) hh hb h,
    fun s ha => ⟨step_of_asks_fetch ha, step_of_asks_decode ha, step_of_asks_execute ha⟩,
    State.accepts_iff, fun s hb h => ?sequencer⟩
  case sequencer =>
    rw [step_of_busy hb h]
    exact ⟨seqStep_of_halted (s := s.popped), seqStep_fetch (s := s.popped), seqStep_decode (s := s.popped),
      fun hh hr => ⟨_, exec_decodeWord s.mbr s.popped, seqStep_execute (s := s.popped) hh hr⟩⟩

end Sys2Proof.Machine
end

section
/-! PROOFS. The family of 42_alu_ops.md: MOV, ADD and SUB (rules R130 to R132), the arithmetic of the ALU (rules R133, R134), and
the word and the text of an operation that takes an operand. -/

namespace Sys2Proof.Machine

/-! ### The ALU at 16 bits (rules R133, R134) -/

/-- The immediate stands for the same number at ACC width. -/
theorem toInt_immValue (imm : Imm) : (immValue imm).toInt = imm.toInt := by
  simp [immValue, BitVec.toInt_signExtend_of_le]

theorem toInt_alu_add (a : Word) (imm : Imm) :
    (alu .add a (immValue imm)).toInt = (a.toInt + imm.toInt).bmod 65536 := by
  rw [alu, BitVec.toInt_add, toInt_immValue]

theorem toInt_alu_sub (a : Word) (imm : Imm) :
    (alu .sub a (immValue imm)).toInt = (a.toInt - imm.toInt).bmod 65536 := by
  rw [alu, BitVec.toInt_sub, toInt_immValue]

/-- Wrapping picks the one congruent integer of ACC's signed range. -/
theorem eq_bmod_iff (n m : Int) : n = m.bmod 65536 ↔ -32768 ≤ n ∧ n ≤ 32767 ∧ (65536 : Int) ∣ n - m := by
  rw [Int.bmod_def]
  omega

/-- The signed and the unsigned reading of a word differ by a multiple of 65536. -/
theorem dvd_toNat_sub_toInt (a : Word) : (65536 : Int) ∣ (a.toNat : Int) - a.toInt := by
  rw [BitVec.toInt_eq_toNat_cond]
  split <;> omega

/-- Settles O10: `eq_bmod_iff` on the two wrapped results; the unsigned laws follow from the signed ones. -/
theorem arithmeticWrapsModulo : Obligations.ArithmeticWrapsModulo := by
  intro a imm
  have hadd (n : Int) := toInt_alu_add a imm ▸ eq_bmod_iff n (a.toInt + imm.toInt)
  have hsub (n : Int) := toInt_alu_sub a imm ▸ eq_bmod_iff n (a.toInt - imm.toInt)
  have operand := dvd_toNat_sub_toInt a
  refine ⟨hadd, hsub, ?addUnsigned, ?subUnsigned, ?subLowest, BitVec.add_zero a, BitVec.sub_zero a, Eq.symm⟩
  case addUnsigned =>
    obtain ⟨_, _, signed⟩ := (hadd _).1 rfl
    have result := dvd_toNat_sub_toInt (alu .add a (immValue imm))
    omega
  case subUnsigned =>
    obtain ⟨_, _, signed⟩ := (hsub _).1 rfl
    have result := dvd_toNat_sub_toInt (alu .sub a (immValue imm))
    omega
  case subLowest =>
    have negated : -immValue 0x800#12 = 2048#16 := by decide
    rw [alu, BitVec.sub_eq_add_neg, negated]

/-! ### Execute of MOV, ADD and SUB (rules R130 to R132) -/

theorem nextAcc_absent (op : AluOp) (imm : Imm) (acc : Word) : nextAcc op false imm acc = acc := rfl

theorem toNat_pcInc (pc : Word) : (pcInc pc).toNat = (pc.toNat + 1) % 65536 := BitVec.toNat_add pc 1#16

/-- Execute's commit writes ACC, PC, `stage` and the highlight only. -/
theorem commitExecute_frame (s : State) (acc pc : Word) : ExecuteFrame s (s.commitExecute acc pc) :=
  ⟨rfl, rfl, rfl, rfl, rfl, rfl, rfl, rfl, rfl, fun _ => rfl, fun _ => rfl, rfl, rfl, rfl⟩

/-- The state after Execute of an accumulator operation. -/
def accOpResult (op : AluOp) (p : Bool) (imm : Imm) (s : State) : State :=
  s.commitExecute (nextAcc op p imm s.acc) (pcInc s.pc)

theorem exec_mov (p : Bool) (imm : Imm) (s : State) : exec (.mov p imm) s = .next (accOpResult .passB p imm s) := rfl

theorem exec_add (p : Bool) (imm : Imm) (s : State) : exec (.add p imm) s = .next (accOpResult .add p imm s) := rfl

theorem exec_sub (p : Bool) (imm : Imm) (s : State) : exec (.sub p imm) s = .next (accOpResult .sub p imm s) := rfl

/-- What an accumulator operation does, given the number its ALU operation answers. -/
theorem accOpResult_effect {op : AluOp} {imm : Imm} {s : State} {n : Int} (p : Bool)
    (h : (alu op s.acc (immValue imm)).toInt = n) :
    (p = true → (accOpResult op p imm s).acc.toInt = n) ∧
    (p = false → (accOpResult op p imm s).acc = s.acc) ∧
    (accOpResult op p imm s).pc.toNat = (s.pc.toNat + 1) % 65536 ∧
    (accOpResult op p imm s).halted = s.halted ∧
    ExecuteFrame s (accOpResult op p imm s) := by
  refine ⟨?present, ?absent, toNat_pcInc s.pc, rfl, commitExecute_frame s _ _⟩
  case present =>
    rintro rfl
    exact h
  case absent =>
    rintro rfl
    exact nextAcc_absent op imm s.acc

/-! ### The text of an operation that takes an operand (rules R80 to R83, R86) -/

/-- A text without whitespace is its only piece. -/
theorem pieces_of_word {a : Text} (ha : ∀ c ∈ a, isSpace c = false) : pieces false a = [a] := by
  simpa [pieces] using pieces_append_word a [] ha

/-- Two words with a space between them are the two pieces. -/
theorem pieces_of_two_words {a b : Text} (ha : ∀ c ∈ a, isSpace c = false) (hb : ∀ c ∈ b, isSpace c = false) :
    pieces false (a ++ ' ' :: b) = [a, b] := by
  have hspace : pieces false (' ' :: b) = [] :: pieces true b := rfl
  have hhead : ∀ c ∈ b.head?, isSpace c = false := fun c hc => hb c (List.mem_of_mem_head? hc)
  rw [pieces_append_word a _ ha, hspace, pieces_of_head b hhead, pieces_of_word hb]
  simp

/-- The mnemonics are words in upper case. -/
theorem operandTags_plain : ∀ m ∈ operandTags, m ≠ [] ∧ upperText m = m ∧ ∀ c ∈ m, isSpace c = false := by
  intro m hm
  simp only [operandTags, List.mem_cons, List.not_mem_nil, or_false] at hm
  rcases hm with rfl | rfl | rfl | rfl <;> exact ⟨List.cons_ne_nil _ _, rfl, by simp [isSpace]⟩

/-- The range of a 12-bit operand (rule R74). -/
theorem toInt_imm_range (imm : Imm) : -2048 ≤ imm.toInt ∧ imm.toInt ≤ 2047 := by
  have := imm.isLt
  rw [toInt_imm]
  split <;> omega

/-- A mnemonic and a printed operand assemble to the word with that operand. -/
theorem assemble_mnemonic_operand {m : Text} (hm : m ∈ operandTags) (imm : Imm) :
    assemble (some (m ++ ' ' :: decimalInt imm.toInt)) = .ok (formatI (opcodeOfTag m) true imm) := by
  obtain ⟨hne, hupper, hword⟩ := operandTags_plain m hm
  obtain ⟨hlo, hhi⟩ := toInt_imm_range imm
  obtain ⟨hparse, _, hplain⟩ := parseInt_decimalInt imm.toInt hlo hhi
  have hpieces := pieces_of_two_words hword hplain
  have hdecode : sourceDecode (some (m ++ ' ' :: decimalInt imm.toInt)) = { tag := m, operand := some imm.toInt } := by
    rw [sourceDecode_of_ne_nil (List.append_ne_nil_of_left_ne_nil hne _), token0, parseOperand, token1, hpieces]
    simp [hupper, hparse]
  rw [assemble, hdecode, assembleSource_of_mem hm, assembleOperand_of_in_range _ ⟨hlo, hhi⟩, BitVec.ofInt_toInt]

/-- A mnemonic that takes an operand, with a second token that is missing or does not parse, assembles to the word without
operand. -/
theorem assemble_of_missing_operand {text : Text} (hm : upperText (token0 text) ∈ operandTags)
    (ho : parseOperand text = none) :
    assemble (some text) = .ok (formatI (opcodeOfTag (upperText (token0 text))) false 0#12) := by
  have hne : text ≠ [] := by
    rintro rfl
    exact absurd hm (by decide)
  rw [assemble, sourceDecode_of_ne_nil hne, ho, assembleSource_of_mem hm]
  rfl

/-- A mnemonic alone. -/
theorem assemble_mnemonic {m : Text} (hm : m ∈ operandTags) :
    assemble (some m) = .ok (formatI (opcodeOfTag m) false 0#12) := by
  obtain ⟨_, hupper, hword⟩ := operandTags_plain m hm
  have hpieces := pieces_of_word hword
  have htag : upperText (token0 m) = m := by rw [token0, hpieces, List.headD_cons, hupper]
  have hnone : parseOperand m = none := by
    rw [parseOperand, token1, hpieces]
    rfl
  rw [assemble_of_missing_operand (htag.symm ▸ hm) hnone, htag]

/-! ### The three instructions -/

/-- Settles O7: `accOpResult_effect` for the ALU passing the operand; the mnemonic's texts. -/
theorem movLoadsOperand : Obligations.MovLoadsOperand :=
  have hm : ['M', 'O', 'V'] ∈ operandTags := by decide
  ⟨fun p imm s => ⟨_, exec_mov p imm s, accOpResult_effect p (toInt_immValue imm)⟩,
    fun _ => rfl, rfl, assemble_mnemonic_operand hm, assemble_mnemonic hm⟩

/-- Settles O8: `accOpResult_effect` for the wrapped sum; the mnemonic's texts. -/
theorem addAddsOperand : Obligations.AddAddsOperand :=
  have hm : ['A', 'D', 'D'] ∈ operandTags := by decide
  ⟨fun p imm s => ⟨_, exec_add p imm s, accOpResult_effect p (toInt_alu_add s.acc imm)⟩,
    fun _ => rfl, rfl, assemble_mnemonic_operand hm, assemble_mnemonic hm⟩

/-- Settles O9: `accOpResult_effect` for the wrapped difference; the mnemonic's texts. -/
theorem subSubtractsOperand : Obligations.SubSubtractsOperand :=
  have hm : ['S', 'U', 'B'] ∈ operandTags := by decide
  ⟨fun p imm s => ⟨_, exec_sub p imm s, accOpResult_effect p (toInt_alu_sub s.acc imm)⟩,
    fun _ => rfl, rfl, assemble_mnemonic_operand hm, assemble_mnemonic hm⟩

/-! ### A missing operand (rule R135) -/

/-- A second token that is missing or does not parse gives no operand. -/
theorem parseOperand_eq_none {text : Text} (h : token1 text = none ∨ ∃ tok, token1 text = some tok ∧ parseInt tok = none) :
    parseOperand text = none := by
  rcases h with h | ⟨tok, h, hparse⟩
  · rw [parseOperand, h, Option.bind_none]
  · rw [parseOperand, h, Option.bind_some, hparse]

/-- The three mnemonics take an operand, and none of them is HLT. -/
theorem accMnemonic_mem_operandTags {m : Text}
    (h : m = ['M', 'O', 'V'] ∨ m = ['A', 'D', 'D'] ∨ m = ['S', 'U', 'B']) : m ∈ operandTags ∧ opcodeOfTag m ≠ 5#3 := by
  rcases h with rfl | rfl | rfl <;> decide

/-- Execute of a word whose operand bit is clear leaves ACC. -/
theorem wordAcc_of_absent {w : Word} (h : pField w = false) (acc : Word) : wordAcc w acc = acc := if_pos h

/-- Execute of a word whose operand bit is clear, if it is no HLT, increments PC. -/
theorem wordPc_of_absent {w : Word} (h : pField w = false) (hop : opField w ≠ 5#3) (pc : Word) : wordPc w pc = pcInc pc := by
  rcases wordPc_cases w pc with ⟨hhlt, _⟩ | ⟨_, hp, _⟩ | ⟨_, _, hpc⟩
  · exact absurd hhlt hop
  · simp [h] at hp
  · exact hpc

/-- Settles O17: the text assembles to the word without operand, whose Execute keeps ACC and increments PC. -/
theorem missingOperandOnlyAdvancesPc : Obligations.MissingOperandOnlyAdvancesPc := by
  intro text s hmnemonic hmissing
  obtain ⟨hm, hhlt⟩ := accMnemonic_mem_operandTags hmnemonic
  have hw := assemble_of_missing_operand hm (parseOperand_eq_none hmissing)
  have hp := pField_formatI (opcodeOfTag (upperText (token0 text))) false 0#12
  have hop : opField (formatI (opcodeOfTag (upperText (token0 text))) false 0#12) ≠ 5#3 := by rwa [Laws.opField_formatI]
  refine ⟨_, _, hw, hasOperand_formatI _ false 0#12, exec_decodeWord _ s, wordAcc_of_absent hp s.acc, ?_⟩
  rw [wordResult_pc, wordPc_of_absent hp hop, toNat_pcInc]

end Sys2Proof.Machine
end

section
/-! PROOFS. The family of 43_control_ops.md: JMP and its clamp (rules R140, R146), HLT (rule R141), and the operations that only
advance PC: NOP, RSV6 and RSV7 (rules R142 to R144). -/

namespace Sys2Proof

/-! ### The words of an instruction (rules R71, R72) -/

/-- Each arm of the encoder is the decoder's row of its opcode number. -/
theorem decodeWord_encode (i : Instr) : decodeWord (encode i) = i := by
  cases i <;> simp [encode, decodeWord_eq, Laws.opField_formatI, pField_formatI, immField_formatI]

/-- Each row of the decoder encodes the word's own three fields. -/
theorem encode_decodeWord (w : Word) : encode (decodeWord w) = w := by
  conv_rhs => rw [← formatI_fields w]
  rw [decodeWord_eq]
  rcases opField_cases w with h | h | h | h | h | h | h | h <;> simp [h, encode]

/-- The words of an opcode number are one eighth of the range. -/
theorem opField_eq_iff (w : Word) (op : Opcode) :
    opField w = op ↔ 8192 * op.toNat ≤ w.toNat ∧ w.toNat < 8192 * op.toNat + 8192 := by
  rw [← BitVec.toNat_inj, toNat_opField]
  omega

/-- The words that decode to an instruction are those of its opcode number, whatever `p` and `imm`. -/
theorem exists_decodeWord_eq_iff {row : Bool → Imm → Instr} {op : Opcode}
    (hrow : ∀ p imm, encode (row p imm) = formatI op p imm) (w : Word) :
    (∃ p imm, decodeWord w = row p imm) ↔ 8192 * op.toNat ≤ w.toNat ∧ w.toNat < 8192 * op.toNat + 8192 := by
  rw [← opField_eq_iff]
  constructor
  · rintro ⟨p, imm, h⟩
    rw [← encode_decodeWord w, h, hrow, Laws.opField_formatI]
  · rintro rfl
    refine ⟨pField w, immField w, ?_⟩
    rw [← decodeWord_encode (row _ _), hrow, formatI_fields]

end Sys2Proof

namespace Sys2Proof.Machine

/-! ### The operations that only advance PC (rules R142 to R144) -/

/-- The state after Execute of NOP, RSV6 or RSV7. -/
def advanceResult (s : State) : State := s.commitExecute s.acc (pcInc s.pc)

theorem exec_nop (p : Bool) (imm : Imm) (s : State) : exec (.nop p imm) s = .next (advanceResult s) := rfl

theorem exec_rsv6 (p : Bool) (imm : Imm) (s : State) : exec (.rsv6 p imm) s = .next (advanceResult s) := rfl

theorem exec_rsv7 (p : Bool) (imm : Imm) (s : State) : exec (.rsv7 p imm) s = .next (advanceResult s) := rfl

theorem advanceResult_effect (s : State) :
    (advanceResult s).acc = s.acc ∧ (advanceResult s).pc.toNat = (s.pc.toNat + 1) % 65536 ∧
    (advanceResult s).halted = s.halted ∧ ExecuteFrame s (advanceResult s) :=
  ⟨rfl, toNat_pcInc s.pc, rfl, commitExecute_frame s _ _⟩

/-- Settles O14: `advanceResult_effect`, the words of opcode number 0, and the three texts. -/
theorem nopOnlyAdvancesPc : Obligations.NopOnlyAdvancesPc := by
  refine ⟨fun p imm s => ⟨_, exec_nop p imm s, advanceResult_effect s⟩, rfl, fun w => ?words, rfl, rfl, rfl⟩
  case words =>
    rw [exists_decodeWord_eq_iff (op := 0#3) fun _ _ => rfl, BitVec.toNat_ofNat]
    omega

/-- No tag stands for opcode number 6. -/
theorem opcodeOfTag_ne_rsv6 (tag : Text) : opcodeOfTag tag ≠ 6#3 := by
  unfold opcodeOfTag
  split_ifs <;> decide

/-- Settles O15: `advanceResult_effect`, the words of opcode number 6, and no tag that stands for it. -/
theorem rsv6ActsAsNop : Obligations.Rsv6ActsAsNop := by
  refine ⟨fun p imm s => ⟨_, exec_rsv6 p imm s, advanceResult_effect s⟩, fun w => ?words, fun text w h => ?never⟩
  case words =>
    rw [exists_decodeWord_eq_iff (op := 6#3) fun _ _ => rfl, BitVec.toNat_ofNat]
    omega
  case never => exact opField_of_assembleSource h ▸ opcodeOfTag_ne_rsv6 _

/-- A tag that is none of the six mnemonics stands for opcode number 7 (rule R83). -/
theorem opcodeOfTag_of_unknown {tag : Text} (hm : tag ∉ operandTags) (hhlt : tag ≠ ['H', 'L', 'T'])
    (hnop : tag ≠ ['N', 'O', 'P']) : opcodeOfTag tag = 7#3 := by
  simp only [operandTags, List.mem_cons, List.not_mem_nil, or_false, not_or] at hm
  obtain ⟨hmov, hadd, hsub, hjmp⟩ := hm
  rw [opcodeOfTag, if_neg hnop, if_neg hmov, if_neg hadd, if_neg hsub, if_neg hjmp, if_neg hhlt]

/-- Settles O16: `advanceResult_effect`, the words of opcode number 7, and the opcode of an unknown tag. -/
theorem rsv7ActsAsNop : Obligations.Rsv7ActsAsNop := by
  refine ⟨fun p imm s => ⟨_, exec_rsv7 p imm s, advanceResult_effect s⟩, rfl, fun w => ?words,
    fun text hne hm hhlt hnop => ?unknown⟩
  case words =>
    have hw := w.isLt
    rw [exists_decodeWord_eq_iff (op := 7#3) fun _ _ => rfl, BitVec.toNat_ofNat]
    omega
  case unknown =>
    rw [assemble, sourceDecode_of_ne_nil hne, assembleSource_of_not_mem hm, opcodeOfTag_of_unknown hm hhlt hnop]
    rfl

/-! ### The jump target (rule R146) -/

/-- A clamp between bounds in order, as the nearer bound of each side. -/
theorem clamp_eq_min_max {lo hi : Int} (h : lo ≤ hi) (v : Int) : clamp v lo hi = min hi (max lo v) := by
  unfold clamp
  split_ifs <;> omega

/-- The clamped operand fits the 16 bits of PC. -/
theorem toNat_jumpTarget (imm : Imm) : ((jumpTarget imm).toNat : Int) = clamp imm.toInt 0 15 := by
  have hclamp := clamp_eq_min_max (lo := 0) (hi := 15) (by decide) imm.toInt
  change ((BitVec.ofInt 16 (clamp imm.toInt 0 15)).toNat : Int) = _
  rw [BitVec.toNat_ofInt]
  omega

/-- Bit 11 of the immediate is its sign bit. -/
theorem imm_sign_iff (imm : Imm) : imm.getLsbD 11 = true ↔ 2048 ≤ imm.toNat := by
  change imm.msb = true ↔ _
  rw [BitVec.msb_eq_decide, decide_eq_true_iff]

/-- Bits 10:4 are zero when the immediate, its sign bit left out, is below 16. -/
theorem imm_upper_eq_zero_iff (imm : Imm) : imm.extractLsb' 4 7 = 0#7 ↔ imm.toNat % 2048 < 16 := by
  rw [← BitVec.toNat_inj, BitVec.extractLsb'_toNat, Nat.shiftRight_eq_div_pow, BitVec.toNat_ofNat]
  omega

theorem toNat_imm_low (imm : Imm) : ((imm.extractLsb' 0 4).setWidth 16).toNat = imm.toNat % 16 := by
  rw [BitVec.toNat_setWidth, BitVec.extractLsb'_toNat, Nat.shiftRight_zero]
  omega

/-- The jump target by the bits of the immediate: negative, above 15, in range. -/
theorem jumpTarget_eq_bits (imm : Imm) :
    jumpTarget imm =
      if imm.getLsbD 11 = true then 0#16
      else if imm.extractLsb' 4 7 ≠ 0#7 then 15#16
      else (imm.extractLsb' 0 4).setWidth 16 := by
  have target := toNat_jumpTarget imm
  have himm := imm.isLt
  rw [clamp_eq_min_max (by decide), toInt_imm] at target
  simp only [imm_sign_iff, ne_eq, imm_upper_eq_zero_iff]
  apply BitVec.eq_of_toNat_eq
  split_ifs with negative small
  · rw [BitVec.toNat_ofNat]
    omega
  · rw [toNat_imm_low]
    omega
  · rw [BitVec.toNat_ofNat]
    omega

/-! ### JMP (rule R140) -/

/-- The state after Execute of JMP. -/
def jmpResult (p : Bool) (imm : Imm) (s : State) : State := s.commitExecute s.acc (jumpNextPc p imm s.pc)

theorem exec_jmp (p : Bool) (imm : Imm) (s : State) : exec (.jmp p imm) s = .next (jmpResult p imm s) := rfl

theorem jmpResult_pc_present (imm : Imm) (s : State) : (jmpResult true imm s).pc = jumpTarget imm := rfl

/-- Without operand JMP is an operation that only advances PC. -/
theorem jmpResult_absent (imm : Imm) (s : State) : jmpResult false imm s = advanceResult s := rfl

/-- Settles O12: the clamp is the definition's own; `toNat_jumpTarget` and `jumpTarget_eq_bits` on the PC of a JMP. -/
theorem clampInHardwareTerms : Obligations.ClampInHardwareTerms :=
  ⟨fun _ _ _ => rfl, fun imm s => ⟨_, exec_jmp true imm s, toNat_jumpTarget imm, jumpTarget_eq_bits imm⟩⟩

/-- Settles O11: the clamped operand or the advance of PC, Execute's frame, and the mnemonic's texts. -/
theorem jmpGoesToClampedOperand : Obligations.JmpGoesToClampedOperand := by
  have hm : ['J', 'M', 'P'] ∈ operandTags := by decide
  refine ⟨fun p imm s => ⟨_, exec_jmp p imm s, ?present, ?absent, rfl, rfl, commitExecute_frame s _ _⟩,
    fun _ => rfl, rfl, assemble_mnemonic_operand hm, assemble_mnemonic hm⟩
  case present =>
    rintro rfl
    rw [jmpResult_pc_present, toNat_jumpTarget, clamp_eq_min_max (by decide)]
  case absent =>
    rintro rfl
    obtain ⟨_, hpc, _⟩ := advanceResult_effect s
    rw [jmpResult_absent, hpc]

/-! ### HLT (rule R141) -/

/-- The state after Execute of HLT. -/
def hltResult (s : State) : State := (s.commitExecute s.acc s.pc).setHalted

theorem exec_hlt (p : Bool) (imm : Imm) (s : State) : exec (.hlt p imm) s = .next (hltResult s) := rfl

theorem hltResult_frame (s : State) : ExecuteFrame s (hltResult s) where
  __ := commitExecute_frame s s.acc s.pc

/-- Execute of a word of HLT is Execute of HLT. -/
theorem wordResult_of_hlt {w : Word} (h : opField w = 5#3) (s : State) : wordResult w s = hltResult s := by
  obtain ⟨p, imm, hw⟩ : ∃ p imm, decodeWord w = .hlt p imm :=
    (exists_decodeWord_eq_iff (op := 5#3) (fun _ _ => rfl) w).2 ((opField_eq_iff w 5#3).1 h)
  have answer := exec_decodeWord w s
  rw [hw, exec_hlt] at answer
  injection answer with answer
  exact answer.symm

/-- The halt short-circuit (rule R153). -/
theorem afterExecute_of_halted {t : State} (h : t.halted = true) : t.afterExecute = t.loopExit := if_pos h

/-- The edge of a halted core with no loop in flight does its edit alone, whatever the command. -/
theorem step_of_halted_free_quiet {s : State} (hh : s.halted = true) (hb : s.busy = false)
    (hq : s.nextInputs.quiet = true) : step s = .next (s.popped.editPort s.nextInputs) := by
  rw [step_of_quiet hq, if_neg (by simp [hb]), hostCommand_of_halted (s := s.popped) hh, andThen_next]

/-- A HLT of the sequencer leaves the loop on its own edge. -/
theorem step_of_sequencer_hlt {s : State} (hb : s.busy = true) (hr : s.rcPos = .x) (hh : s.halted = false)
    (hq : s.nextInputs.quiet = true) (ho : opField s.mbr = 5#3) :
    step s = .next ((hltResult s.popped).loopExit.editPort s.nextInputs) := by
  rw [step_of_executes (.inl ⟨hb, hr, hh⟩) hq, if_pos hb, wordResult_of_hlt ho, afterExecute_of_halted rfl]

/-- Settles O13: `hltResult` and its frame, the words of opcode number 5, the edges of a halted core by command, edit and reset,
and `step_of_sequencer_hlt`. -/
theorem hltHaltsTheCore : Obligations.HltHaltsTheCore := by
  refine ⟨fun p imm s => ⟨_, exec_hlt p imm s, rfl, rfl, rfl, hltResult_frame s, ⟨rfl, rfl⟩, id⟩, rfl, rfl,
    fun w => ?words, fun s hh hb hq => step_of_halted_free_quiet hh hb hq, fun s hp hr => ?reset,
    fun s hb hr hh hq ho => ?sequencer⟩
  case words =>
    rw [exists_decodeWord_eq_iff (op := 5#3) fun _ _ => rfl, BitVec.toNat_ofNat]
    omega
  case reset => exact ⟨_, step_of_rst hp hr, by simp⟩
  case sequencer => exact ⟨_, step_of_sequencer_hlt hb hr hh hq ho, by simp [hltResult]⟩

end Sys2Proof.Machine
end

section
/-! PROOFS. The family of 44_run_controller.md: the accepted RUN (rule R150) and the sequencer's steps F, D and X (rules R151 to
R154). -/

namespace Sys2Proof.Machine

/-! ### RUN (rule R150) -/

theorem step_of_asks_run {s : State} (ha : s.accepts = true) (h : s.asks 4#3) : step s = .next s.popped.runAllAccept := by
  obtain ⟨hh, hb⟩ := s.accepts_iff.1 ha
  rw [step_of_asks hb h]
  exact if_neg (by simp [hh])

theorem State.accepts_eq_false_iff (s : State) : s.accepts = false ↔ s.halted = true ∨ s.busy = true := by
  rw [← Bool.not_eq_true, s.accepts_iff, not_and_or, Bool.not_eq_false, Bool.not_eq_false]

/-- Settles O20: `step_of_asks_run`, and the command port of a core that accepts nothing. -/
theorem runCommandEffect : Obligations.RunCommandEffect :=
  ⟨fun s hh hb h => step_of_asks_run (s.accepts_iff.2 ⟨hh, hb⟩) h,
    fun s i rest h => step_cmd_of_not_accepts (s.accepts_eq_false_iff.2 h) i rest 4#3 0#3⟩

/-! ### Steps F and D (rules R151, R152) -/

/-- A halted loop is left on its next edge, wherever it stands. -/
theorem step_of_halted_loop {s : State} (hb : s.busy = true) (h : s.nextInputs.commandOnly = true) (hh : s.halted = true) :
    step s = .next s.popped.loopExit := by
  rw [step_of_busy hb h, seqStep_of_halted (s := s.popped) hh]

/-- Step F of a cancelled loop. -/
theorem seqStep_of_cancelled {s : State} (hr : s.rcPos = .f) (hc : s.cancel = true) : s.seqStep = .next s.loopExit := by
  simp [State.seqStep, hr, State.seqF, hc]

/-- Settles O26: the two reasons to leave at F, and the Fetch. -/
theorem sequencerStepF : Obligations.SequencerStepF := by
  intro s hb hr h
  refine ⟨?leaves, fun hc hh => ?fetches⟩
  case leaves =>
    rintro (hc | hh)
    · rw [step_of_busy hb h, seqStep_of_cancelled (s := s.popped) hr hc]
      rfl
    · exact step_of_halted_loop hb h hh
  case fetches =>
    rw [step_of_busy hb h, seqStep_fetch (s := s.popped) hh hr hc]
    rfl

/-- Settles O27: the Decode, whose equation does not ask for `cancel`, and the halted loop. -/
theorem sequencerStepD : Obligations.SequencerStepD := by
  intro s hb hr h
  refine ⟨fun hh => ?decodes, step_of_halted_loop hb h⟩
  case decodes =>
    rw [step_of_busy hb h, seqStep_decode (s := s.popped) hh hr]
    rfl

/-! ### Step X (rule R153) -/

/-- The two ends of a loop after its Execute: the halt short-circuit and the runaway guard. -/
theorem afterExecute_of_ends {t : State} (h : t.halted = true ∨ 15 < t.pc.toNat) : t.afterExecute = t.loopExit := by
  rcases afterExecute_cases t with ⟨_, exits⟩ | ⟨_, _, exits⟩ | ⟨hh, hpc, _⟩
  · exact exits
  · exact exits
  · have hpc' : ¬ 15 < t.pc.toNat := by omega
    simp [hh, hpc'] at h

/-- The loop goes on from a PC in range. -/
theorem afterExecute_of_goes_on {t : State} (hh : t.halted = false) (hpc : t.pc.toNat ≤ 15) :
    t.afterExecute = t.withRcPos .f := by
  rcases afterExecute_cases t with ⟨hh', _⟩ | ⟨_, hpc', _⟩ | ⟨_, _, goesOn⟩
  · simp [hh] at hh'
  · omega
  · exact goesOn

/-- From a core that is not halted, Execute ends halted on HLT only. -/
theorem wordResult_halted_iff {s : State} (hh : s.halted = false) (w : Word) :
    (wordResult w s).halted = true ↔ opField w = 5#3 := by
  rw [wordResult_halted, hh, Bool.false_or, decide_eq_true_iff]

/-- Settles O28: the halted loop; else the Execute of MBR, and by its result one of the loop's two ends or the next cycle. -/
theorem sequencerStepX : Obligations.SequencerStepX := by
  intro s hb hr h
  refine ⟨step_of_halted_loop hb h, fun hh => ?executes⟩
  case executes =>
    have executed : step s = .next (wordResult s.mbr s.popped).afterExecute := by
      rw [step_of_busy hb h]
      exact seqStep_execute (s := s.popped) hh hr
    refine ⟨_, exec_decodeWord s.mbr s.popped, wordResult_halted_iff (s := s.popped) hh s.mbr, fun ends => ?_,
      fun running inRange => ?_⟩
    · rw [executed, afterExecute_of_ends ends]
      rfl
    · rw [executed, afterExecute_of_goes_on running inRange]
      rfl

end Sys2Proof.Machine
end

section
/-! PROOFS. The family of 60_exceptions.md: the core raises no exception (rule R170). -/

namespace Sys2Proof.Machine

/-- Settles O46: `step_answers`, by what stands on the ports: power-on, reset, or any other edge, whose every action
(`step_quiet_action`) is one of the cases of `QuietAction`. -/
theorem noStepStops : Obligations.NoStepStops := step_answers

end Sys2Proof.Machine
end

section
/-! PROOFS. The family of 70_reset_and_hazards.md: power-on (rule R190) and the reset command (rules R191, R192). -/

namespace Sys2Proof.Machine

/-! ### The reset command (rules R191, R192) -/

/-- Of two resets in a row the second one changes nothing. -/
theorem State.resetOp_resetOp (s : State) : s.resetOp.resetOp = s.resetOp := rfl

/-- A reset edge without an edit is the reset operation, whatever the state and the command beside it. -/
theorem step_reset_sample (s : State) {r : EdgeInputs} (rest : List EdgeInputs) (hp : r.por = false) (hr : r.rst = true)
    (hw : r.memWe = false) : step { s with pending := r :: rest } = .next (State.resetOp { s with pending := rest }) := by
  rw [step_of_rst (s := { s with pending := r :: rest }) hp hr]
  exact congrArg _ (editPort_of_not_memWe hw)

/-- Two reset edges in a row leave the state of one: the second edge resets a state that is reset already. -/
theorem run_two_resets (s : State) {r q : EdgeInputs} (rest : List EdgeInputs) (hrp : r.por = false) (hrr : r.rst = true)
    (hrw : r.memWe = false) (hqp : q.por = false) (hqr : q.rst = true) (hqw : q.memWe = false) :
    State.run { s with pending := r :: q :: rest } 2 = .next (State.resetOp { s with pending := rest }) := by
  have first := step_reset_sample s (q :: rest) hrp hrr hrw
  have second : step (State.resetOp { s with pending := q :: rest }) =
      .next (State.resetOp (State.resetOp { s with pending := rest })) :=
    step_reset_sample s.resetOp rest hqp hqr hqw
  rw [State.run_succ 1 first, State.run_succ 0 second, State.run_zero, State.resetOp_resetOp]

/-- A sample that is not quiet asks for reset or for power-on. -/
theorem EdgeInputs.rst_or_por_of_not_quiet {i : EdgeInputs} (h : i.quiet = false) : i.rst = true ∨ i.por = true := by
  cases hp : i.por with
  | true => exact .inr rfl
  | false => exact .inl (by simpa [EdgeInputs.quiet, hp] using h)

/-- Settles O39: `step_reset_sample`, `run_two_resets`, and rule R27 for the edges that clear `halted`. -/
theorem resetIsIdempotentAndAlwaysTaken : Obligations.ResetIsIdempotentAndAlwaysTaken := by
  obtain ⟨_, clearedOnlyByReset, _, _⟩ := haltedSetByHltClearedByReset
  refine ⟨fun s r q rest hrp hrr hrw hqp hqr hqw => ?resets, fun s t h h1 h0 => ?clears⟩
  case resets =>
    have one := step_reset_sample s rest hrp hrr hrw
    exact ⟨one, (run_two_resets s rest hrp hrr hrw hqp hqr hqw).trans one.symm⟩
  case clears => exact EdgeInputs.rst_or_por_of_not_quiet (clearedOnlyByReset s t h h1 h0)

/-- A slot after an edge with an edit: the new word at the edited address, the old one elsewhere. -/
theorem step_readSlot_of_memWe {s t : State} (h : step s = .next t) (hp : s.nextInputs.por = false)
    (hw : s.nextInputs.memWe = true) (a : SlotAddr) :
    t.imem.readSlot a = if a = s.nextInputs.memWaddr then s.nextInputs.memWdata else s.imem.readSlot a := by
  rw [step_imem h hp, if_pos hw, Memory.readSlot_writeSlot]

/-- Settles O38: the fields by `step_of_rst` and the fields of `resetOp`, which the edit leaves; the memory by `step_imem`. -/
theorem resetCommandEffect : Obligations.ResetCommandEffect := by
  intro s hp hr
  have reset := step_of_rst hp hr
  have unedited (hw : s.nextInputs.memWe = false) : (s.popped.resetOp.editPort s.nextInputs).imem = s.imem := by
    rw [step_imem reset hp, hw, if_neg Bool.false_ne_true]
  have edited a (hw : s.nextInputs.memWe = true) := step_readSlot_of_memWe reset hp hw a
  refine ⟨_, reset, ?fields⟩
  case fields => simpa [Config.nopWord] using ⟨unedited, edited⟩

/-! ### Power-on (rule R190) -/

/-- The 16 words of the memory without a listed cell: `INIT_IMAGE`, then `NOP_WORD`. -/
theorem Memory.words_nil : Memory.words [] =
    [0x3005#16, 0x5003#16, 0x7001#16, 0x9000#16, 0xA000#16, 0#16, 0#16, 0#16, 0#16, 0#16, 0#16, 0#16, 0#16, 0#16, 0#16,
      0#16] := by decide

/-- Power-on leaves nothing of the state before it but the coming samples. -/
theorem State.powerOn_eq (s : State) : s.powerOn = { State.reset with pending := s.pending } := by
  rw [State.powerOn, State.powerOnWith, Memory.ofImage_initImage]
  rfl

/-- The power-on state has every power-on value, whatever samples are to come. -/
theorem powerOnValues_reset (samples : List EdgeInputs) : State.PowerOnValues { State.reset with pending := samples } where
  pc := rfl
  ir := rfl
  acc := rfl
  marV := rfl
  mar := rfl
  mbr := rfl
  stage := rfl
  halted := rfl
  running := rfl
  hlV := rfl
  hlAddr := rfl
  busy := rfl
  cancel := rfl
  rcPos := rfl
  memory := Memory.words_nil

theorem powerOnValues_powerOn (s : State) : State.PowerOnValues s.powerOn :=
  s.powerOn_eq ▸ powerOnValues_reset s.pending

/-- Settles O37: `step_of_por`, and the values of `State.reset` with the samples that remain. -/
theorem powerOnPutsEveryPowerOnValue : Obligations.PowerOnPutsEveryPowerOnValue :=
  ⟨powerOnValues_reset [], fun s h => ⟨_, step_of_por h, powerOnValues_powerOn s.popped, rfl⟩⟩

end Sys2Proof.Machine
end

section
/-! PROOFS. Words and instructions as a whole (rules R70 to R72, R77): the two round trips, the rows of the opcode table, and the
datapath of the control signals (rules R103, R134, R145). -/

namespace Sys2Proof.Machine

/-! ### The round trips (rule R77) -/

/-- The bytes of a word decode as the word, and what stands behind them is left. -/
theorem decodeBytes_wordBytes_append (w : Word) (rest : List Byte) :
    decodeBytes (wordBytes w ++ rest) = .ok (decodeWord w, rest) := by
  change Except.ok (decodeWord (wordOfBytes (highByte w) (lowByte w)), rest) = _
  rw [wordOfBytes_bytes]

/-- Settles O1: `decodeWord_encode` on words, and on bytes because a word's two bytes give the word. -/
theorem decodeOfEncodeIsIdentity : Obligations.DecodeOfEncodeIsIdentity := by
  refine fun i => ⟨decodeWord_encode i, fun rest => ?_⟩
  rw [encodeBytes, decodeBytes_wordBytes_append, decodeWord_encode]

/-- Settles O2: `encode_decodeWord`, row by row of the decoder. -/
theorem encodeOfDecodeIsIdentity : Obligations.EncodeOfDecodeIsIdentity := encode_decodeWord

/-! ### The opcode table by match and mask (rule R72) -/

/-- The mask of every row keeps the opcode number and clears the other two fields. -/
theorem and_rowMask (w : Word) : w &&& 0xE000#16 = formatI (opField w) false 0#12 := by
  have mask : 0xE000#16 = formatI (BitVec.allOnes 3) false 0#12 := rfl
  apply BitVec.eq_of_getLsbD_eq
  intro i hi
  rw [mask, BitVec.getLsbD_and, getLsbD_formatI, getLsbD_formatI]
  split_ifs with h h12
  · simp
  · simp
  · rw [BitVec.getLsbD_allOnes, opField, BitVec.getLsbD_extractLsb', show 13 + (i - 13) = i by omega, Bool.and_comm]

/-- A word is of the row with this opcode number exactly when the mask leaves the row's match. -/
theorem opField_eq_iff_masked (w : Word) (op : Opcode) : opField w = op ↔ w &&& 0xE000#16 = formatI op false 0#12 := by
  rw [and_rowMask]
  refine ⟨fun h => h ▸ rfl, fun h => ?_⟩
  rw [← Laws.opField_formatI (opField w) false 0#12, h, Laws.opField_formatI]

/-- One row of the opcode table: the constructor with its opcode number, and its match. -/
theorem exists_decodeWord_eq_iff_masked {row : Bool → Imm → Instr} {op : Opcode}
    (hrow : ∀ p imm, encode (row p imm) = formatI op p imm) (w : Word) :
    (∃ p imm, decodeWord w = row p imm) ↔ w &&& 0xE000#16 = formatI op false 0#12 := by
  rw [exists_decodeWord_eq_iff hrow, ← opField_eq_iff, opField_eq_iff_masked]

/-- Settles O5: `exists_decodeWord_eq_iff_masked` for each of the eight rows. -/
theorem opcodeTableRows : Obligations.OpcodeTableRows := fun w =>
  ⟨exists_decodeWord_eq_iff_masked (op := 0#3) (fun _ _ => rfl) w,
    exists_decodeWord_eq_iff_masked (op := 1#3) (fun _ _ => rfl) w,
    exists_decodeWord_eq_iff_masked (op := 2#3) (fun _ _ => rfl) w,
    exists_decodeWord_eq_iff_masked (op := 3#3) (fun _ _ => rfl) w,
    exists_decodeWord_eq_iff_masked (op := 4#3) (fun _ _ => rfl) w,
    exists_decodeWord_eq_iff_masked (op := 5#3) (fun _ _ => rfl) w,
    exists_decodeWord_eq_iff_masked (op := 6#3) (fun _ _ => rfl) w,
    exists_decodeWord_eq_iff_masked (op := 7#3) (fun _ _ => rfl) w⟩

/-- Settles O6: the decoder evaluated on ten closed words. -/
theorem sampleWordsDecode : Obligations.SampleWordsDecode := by
  unfold Obligations.SampleWordsDecode
  decide

/-! ### The datapath (rules R103, R134, R145) -/

/-- The ALU under `acc_we` gives nextACC of the operation table. -/
theorem datapathAcc_controlSignals (w acc : Word) :
    datapathAcc (controlSignals (decodeRecord w)) acc = wordAcc w acc := by
  unfold wordAcc decodeRecord
  have h8 := opField_cases w
  generalize opField w = op at h8 ⊢
  cases pField w <;> rcases h8 with rfl | rfl | rfl | rfl | rfl | rfl | rfl | rfl <;> rfl

/-- The PC multiplexer gives nextPC of the operation table. -/
theorem datapathPc_controlSignals (w pc : Word) :
    datapathPc (controlSignals (decodeRecord w)) pc = wordPc w pc := by
  unfold wordPc decodeRecord
  have h8 := opField_cases w
  generalize opField w = op at h8 ⊢
  cases pField w <;> rcases h8 with rfl | rfl | rfl | rfl | rfl | rfl | rfl | rfl <;> rfl

/-- `halt_set` is raised by HLT alone. -/
theorem haltSet_controlSignals (w : Word) : (controlSignals (decodeRecord w)).haltSet = decide (opField w = 5#3) := by
  simp [controlSignals, decodeRecord, classOf_eq_hlt_iff]

/-- Settles O51: Execute's nextACC, nextPC and `halted` are those of the three select lines. -/
theorem datapathComputesExecute : Obligations.DatapathComputesExecute := by
  intro s
  rw [executeStage_eq, State.datapathExecute, wordResult]
  simp only [datapathAcc_controlSignals, datapathPc_controlSignals, haltSet_controlSignals]
  by_cases h : opField s.mbr = 5#3 <;> simp [h, State.setHalted, State.commitExecute]

end Sys2Proof.Machine
end

section
/-! PROOFS. `Assemble` as a whole (30_encoding.md part B): the pieces of a text (rule R80), the record of an assembled word
(rule R105), its canonical form and printing (rules R78, R86), and the loader's refusals (rule R53). -/

namespace Sys2Proof.Machine

/-! ### Pieces (rule R80) -/

theorem isSpace_iff (c : Char) : isSpace c = true ↔ (9 ≤ c.toNat ∧ c.toNat ≤ 13) ∨ c.toNat = 32 := by
  simp only [isSpace, Bool.or_eq_true, Bool.and_eq_true, decide_eq_true_eq]
  omega

/-- Before whitespace, and at the end of the text, the first piece is empty. -/
theorem headD_pieces_of_space {t : Text} (h : ∀ c ∈ t.head?, isSpace c = true) : (pieces false t).headD [] = [] := by
  cases t with
  | nil => rfl
  | cons c cs => simp [pieces, h c (by simp)]

/-- A piece and a run of whitespace: the pieces of what follows come next. -/
theorem pieces_word_run {a ws : Text} (t : Text) (ha : ∀ c ∈ a, isSpace c = false) (hws : ∀ c ∈ ws, isSpace c = true)
    (hne : ws ≠ []) : pieces false (a ++ (ws ++ t)) = a :: pieces true t := by
  cases ws with
  | nil => exact absurd rfl hne
  | cons c cs =>
    have run := pieces_append_run cs t fun d hd => hws d (List.mem_cons_of_mem c hd)
    have hpieces : pieces false (c :: cs ++ t) = [] :: pieces true t := by
      simp [pieces, hws c (by simp), run]
    rw [pieces_append_word a _ ha, hpieces]
    simp

/-- After a run of whitespace, the piece up to the next whitespace or the end of the text comes first. -/
theorem head?_pieces_after_run {b rest : Text} (hb : ∀ c ∈ b, isSpace c = false) (hend : b ≠ [] ∨ rest = [])
    (hrest : ∀ c ∈ rest.head?, isSpace c = true) : (pieces true (b ++ rest))[0]? = some b := by
  cases b with
  | nil =>
    obtain rfl : rest = [] := hend.resolve_left (fun h => h rfl)
    rfl
  | cons c cs =>
    rw [pieces_of_head _ (by simpa using hb c (by simp)), pieces_append_word _ _ hb, headD_pieces_of_space hrest]
    simp

/-- Settles O59: the six characters, `pieces_word_run` with the piece after it, and a text that is one word. -/
theorem tokensAreCutAtWhitespaceRuns : Obligations.TokensAreCutAtWhitespaceRuns := by
  refine ⟨isSpace_iff, fun a ws b rest ha hb hws hne hend hrest => ?twoTokens, fun a ha => ?oneToken⟩
  case twoTokens =>
    have hcut : pieces false (a ++ ws ++ b ++ rest) = a :: pieces true (b ++ rest) := by
      rw [List.append_assoc, List.append_assoc, pieces_word_run _ ha hws hne]
    rw [token0, token1, hcut]
    exact ⟨rfl, head?_pieces_after_run hb hend hrest⟩
  case oneToken =>
    rw [token0, token1, pieces_of_word ha]
    exact ⟨rfl, rfl⟩

/-! ### The word of an accepted text -/

/-- Everything `Assemble` accepts: a tag with an operand in range, or a word without operand. -/
theorem assembleSource_ok {d : SourceInstr} {w : Word} (h : assembleSource d = .ok w) :
    (w = formatI (opcodeOfTag d.tag) false 0#12 ∧ (d.tag ∉ operandTags ∨ d.operand = none)) ∨
    (d.tag ∈ operandTags ∧ ∃ n, d.operand = some n ∧ (-2048 ≤ n ∧ n ≤ 2047) ∧
      w = formatI (opcodeOfTag d.tag) true (BitVec.ofInt 12 n)) := by
  by_cases ht : d.tag ∈ operandTags
  · rw [assembleSource_of_mem ht] at h
    rcases assembleOperand_ok h with ⟨ho, rfl⟩ | ⟨n, ho, hlo, hhi, rfl⟩
    · exact .inl ⟨rfl, .inr ho⟩
    · exact .inr ⟨ht, n, ho, ⟨hlo, hhi⟩, rfl⟩
  · rw [assembleSource_of_not_mem ht] at h
    injection h with h
    exact .inl ⟨h.symm, .inl ht⟩

/-! ### The record of an assembled word (rule R105) -/

theorem classOf_opcodeOfTag (tag : Text) : classOf (opcodeOfTag tag) = classOfTag tag := by
  by_cases hnop : tag = ['N', 'O', 'P']
  · subst hnop
    rfl
  · rw [opcodeOfTag, if_neg hnop, classOfTag]
    split_ifs <;> rfl

/-- Settles O54: the class by the opcode of the tag; the operand by the two kinds of accepted text. -/
theorem assembleAgreesWithSourceDecoder : Obligations.AssembleAgreesWithSourceDecoder := by
  intro text w h
  refine ⟨?cls, ?operand⟩
  case cls =>
    change classOf (opField w) = _
    rw [opField_of_assembleSource h, classOf_opcodeOfTag]
  case operand =>
    rcases assembleSource_ok h with ⟨rfl, habsent⟩ | ⟨ht, n, ho, hn, rfl⟩
    · have absent : ¬ ((sourceDecode text).tag ∈ operandTags ∧ (sourceDecode text).operand.isSome = true) := by
        rintro ⟨ht, hsome⟩
        rcases habsent with habsent | habsent
        · exact habsent ht
        · simp [habsent] at hsome
      simp only [hasOperand_formatI, Bool.false_and, Bool.false_eq_true, false_iff, false_implies, and_true]
      exact absent
    · simp [hasOperand_formatI, takesOperand_of_mem ht, operand_formatI_ofInt _ _ hn, ht, ho]

/-! ### Canonical words and printing (rules R78, R86) -/

/-- The words without operand are canonical, but for the row that `Assemble` never produces. -/
theorem canonical_of_absent : ∀ op : Opcode, op ≠ 6#3 → (decodeWord (formatI op false 0#12)).canonical = true := by
  decide

/-- The words of a tag with an operand are canonical. -/
theorem canonical_of_present {tag : Text} (h : tag ∈ operandTags) (imm : Imm) :
    (decodeWord (formatI (opcodeOfTag tag) true imm)).canonical = true := by
  simp only [operandTags, List.mem_cons, List.not_mem_nil, or_false] at h
  rcases h with rfl | rfl | rfl | rfl
  · exact congrArg Instr.canonical (decodeWord_encode (.mov true imm))
  · exact congrArg Instr.canonical (decodeWord_encode (.add true imm))
  · exact congrArg Instr.canonical (decodeWord_encode (.sub true imm))
  · exact congrArg Instr.canonical (decodeWord_encode (.jmp true imm))

/-- A printed instruction with a canonical operand field assembles to its word. -/
theorem assemble_withOperand {m : Text} (hm : m ∈ operandTags) {p : Bool} {imm : Imm}
    (hc : (p || decide (imm = 0#12)) = true) :
    assemble (some (withOperand m p imm)) = .ok (formatI (opcodeOfTag m) p imm) := by
  cases p with
  | true => exact assemble_mnemonic_operand hm imm
  | false =>
    obtain rfl : imm = 0#12 := by simpa using hc
    exact assemble_mnemonic hm

/-- Printing a canonical instruction and assembling the text gives its word back. -/
theorem assemble_instrText {i : Instr} (hc : i.canonical = true) : assemble (some (instrText i)) = .ok (encode i) := by
  have absent {p : Bool} {imm : Imm} (h : (!p && decide (imm = 0#12)) = true) : p = false ∧ imm = 0#12 := by
    simpa using h
  cases i with
  | nop p imm => obtain ⟨rfl, rfl⟩ := absent hc; rfl
  | mov p imm => exact assemble_withOperand (m := ['M', 'O', 'V']) (by decide) hc
  | add p imm => exact assemble_withOperand (m := ['A', 'D', 'D']) (by decide) hc
  | sub p imm => exact assemble_withOperand (m := ['S', 'U', 'B']) (by decide) hc
  | jmp p imm => exact assemble_withOperand (m := ['J', 'M', 'P']) (by decide) hc
  | hlt p imm => obtain ⟨rfl, rfl⟩ := absent hc; rfl
  | rsv6 p imm => cases hc
  | rsv7 p imm => obtain ⟨rfl, rfl⟩ := absent hc; rfl

/-- Settles O55: the two kinds of accepted text give canonical words, and `assemble_instrText`. -/
theorem assembleProducesExactlyCanonicalWords : Obligations.AssembleProducesExactlyCanonicalWords := by
  refine ⟨fun text w h => ?canonical, fun i => assemble_instrText⟩
  case canonical =>
    rcases assembleSource_ok h with ⟨rfl, _⟩ | ⟨ht, n, _, _, rfl⟩
    · exact canonical_of_absent _ (opcodeOfTag_ne_rsv6 _)
    · exact canonical_of_present ht _

/-! ### The loader (rule R53) -/

/-- Settles O60: the address is looked at first, whatever the text. -/
theorem loaderReportsTheAddressFirst : Obligations.LoaderReportsTheAddressFirst :=
  fun s _ text _ h _ => setMemoryText_of_out_of_range s text h

end Sys2Proof.Machine
end

section
/-! PROOFS. Canonical memories are their 16 words (20_memory.md section 1, entry 1), and what the host can observe of a state: the
snapshot (rule R8), the output ports (rule R160) and the register file by index (rule R20). -/

namespace Sys2Proof.Machine

/-! ### Canonical memories read alike only when they are equal -/

/-- A list of cells without one at an address reads as the default there. -/
theorem Memory.readByte_of_forall_ne {m : Memory} {k : Nat} (h : ∀ c ∈ m, c.1 ≠ k) : m.readByte k = defaultByte k := by
  induction m with
  | nil => rfl
  | cons c rest ih =>
    obtain ⟨j, b⟩ := c
    rw [Memory.readByte, if_neg (h (j, b) (by simp))]
    exact ih fun c hc => h c (List.mem_cons_of_mem _ hc)

/-- Rising addresses are all at or above the first bound. -/
theorem Memory.le_of_risesFrom {m : Memory} {lo : Nat} (h : Memory.risesFrom lo m = true) : ∀ c ∈ m, lo ≤ c.1 := by
  induction m generalizing lo with
  | nil => simp
  | cons d rest ih =>
    obtain ⟨j, b⟩ := d
    simp only [Memory.risesFrom, Bool.and_eq_true, decide_eq_true_eq] at h
    obtain ⟨hj, hrest⟩ := h
    intro c hc
    rcases List.mem_cons.1 hc with rfl | hc
    · exact hj
    · exact (by omega : lo ≤ j + 1).trans (ih hrest c hc)

/-- Below a bound that all addresses keep, every byte is the default. -/
theorem Memory.readByte_of_lt {m : Memory} {lo k : Nat} (h : Memory.risesFrom lo m = true) (hk : k < lo) :
    m.readByte k = defaultByte k :=
  Memory.readByte_of_forall_ne fun c hc => (hk.trans_le (Memory.le_of_risesFrom h c hc)).ne'

theorem Memory.readByte_cons_self (j : Nat) (b : Byte) (rest : Memory) :
    Memory.readByte ((j, b) :: rest) j = b := if_pos rfl

/-- No first cell stands below the first cell of a memory that reads alike: its byte would be the default there. -/
theorem Memory.first_le_of_readByte_eq {j j' : Nat} {b b' : Byte} {rest rest' : Memory} (hb : b ≠ defaultByte j)
    (hrises : Memory.risesFrom (j' + 1) rest' = true)
    (hread : Memory.readByte ((j, b) :: rest) j = Memory.readByte ((j', b') :: rest') j) : j' ≤ j := by
  by_contra hlt
  rw [Memory.readByte_cons_self, Memory.readByte, if_neg (by omega), Memory.readByte_of_lt hrises (by omega)] at hread
  exact hb hread

/-- Rising cells, none equal to its default, are determined by what every byte reads as. -/
theorem Memory.eq_of_readByte_eq {m n : Memory} {lo lo' : Nat} (hm : Memory.risesFrom lo m = true)
    (hn : Memory.risesFrom lo' n = true) (hmd : ∀ c ∈ m, c.2 ≠ defaultByte c.1) (hnd : ∀ c ∈ n, c.2 ≠ defaultByte c.1)
    (hread : ∀ k, m.readByte k = n.readByte k) : m = n := by
  induction m generalizing n lo lo' with
  | nil =>
    cases n with
    | nil => rfl
    | cons d rest' =>
      obtain ⟨j, b⟩ := d
      exact absurd ((Memory.readByte_cons_self j b rest').symm.trans (hread j).symm) (hnd (j, b) (by simp))
  | cons c rest ih =>
    obtain ⟨j, b⟩ := c
    have hb : b ≠ defaultByte j := hmd (j, b) (by simp)
    cases n with
    | nil => exact absurd ((Memory.readByte_cons_self j b rest).symm.trans (hread j)) hb
    | cons d rest' =>
      obtain ⟨j', b'⟩ := d
      simp only [Memory.risesFrom, Bool.and_eq_true, decide_eq_true_eq] at hm hn
      obtain ⟨_, hrest⟩ := hm
      obtain ⟨_, hrest'⟩ := hn
      obtain rfl : j = j' := le_antisymm
        (Memory.first_le_of_readByte_eq (hnd (j', b') (by simp)) hrest (hread j').symm)
        (Memory.first_le_of_readByte_eq hb hrest' (hread j))
      have hbyte : b = b' := by simpa only [Memory.readByte_cons_self] using hread j
      have htail (k : Nat) : Memory.readByte rest k = Memory.readByte rest' k := by
        by_cases hk : k = j
        · rw [Memory.readByte_of_lt hrest (by omega), Memory.readByte_of_lt hrest' (by omega)]
        · simpa only [Memory.readByte, if_neg (Ne.symm hk)] using hread k
      rw [hbyte, ih hrest hrest' (fun c hc => hmd c (List.mem_cons_of_mem _ hc))
        (fun c hc => hnd c (List.mem_cons_of_mem _ hc)) htail]

/-! ### Slots and their bytes -/

theorem highByte_wordOfBytes (hi lo : Byte) : highByte (wordOfBytes hi lo) = hi :=
  BitVec.extractLsb'_append_eq_left

theorem lowByte_wordOfBytes (hi lo : Byte) : lowByte (wordOfBytes hi lo) = lo :=
  BitVec.extractLsb'_append_eq_right

/-- Memories whose slots read the same read the same at every byte of a slot. -/
theorem Memory.readByte_eq_of_readSlot_eq {m n : Memory} (h : ∀ a, m.readSlot a = n.readSlot a) {k : Nat}
    (hk : k < cellCount) : m.readByte k = n.readByte k := by
  have hk32 : k < 32 := hk
  have hslot := h (BitVec.ofNat 4 (k / 2))
  have haddr : (BitVec.ofNat 4 (k / 2)).toNat = k / 2 := by
    rw [BitVec.toNat_ofNat]
    omega
  rw [Memory.readSlot, Memory.readSlot, haddr] at hslot
  rcases Nat.mod_two_eq_zero_or_one k with hpar | hpar
  · have := congrArg highByte hslot
    rwa [highByte_wordOfBytes, highByte_wordOfBytes, show 2 * (k / 2) = k by omega] at this
  · have := congrArg lowByte hslot
    rwa [lowByte_wordOfBytes, lowByte_wordOfBytes, show 2 * (k / 2) + 1 = k by omega] at this

/-- Beyond the 16 slots a canonical memory reads as the default. -/
theorem Memory.readByte_of_cellCount_le {m : Memory} (h : m.wf = true) {k : Nat} (hk : cellCount ≤ k) :
    m.readByte k = defaultByte k := by
  obtain ⟨_, hcells⟩ := Memory.wf_iff.1 h
  exact Memory.readByte_of_forall_ne fun c hc => ((hcells c hc).1.trans_le hk).ne

/-- Settles O36: the slots give every byte, and the bytes give the cells. -/
theorem canonicalMemoriesAreTheirSlots : Obligations.CanonicalMemoriesAreTheirSlots := by
  intro m n hm hn hslots
  obtain ⟨hmr, hmd⟩ := Memory.wf_iff.1 hm
  obtain ⟨hnr, hnd⟩ := Memory.wf_iff.1 hn
  refine Memory.eq_of_readByte_eq hmr hnr (fun c hc => (hmd c hc).2) (fun c hc => (hnd c hc).2) fun k => ?_
  by_cases hk : k < cellCount
  · exact Memory.readByte_eq_of_readSlot_eq hslots hk
  · rw [Memory.readByte_of_cellCount_le hm (by omega), Memory.readByte_of_cellCount_le hn (by omega)]

/-! ### The snapshot (rule R8) -/

/-- The memory sequence shows every slot and nothing else. -/
theorem Memory.words_eq_iff (m n : Memory) : m.words = n.words ↔ ∀ a, m.readSlot a = n.readSlot a := by
  simp only [Memory.words, List.map_inj_left, List.mem_range]
  refine ⟨fun h a => ?_, fun h k _ => h _⟩
  have := h a.toNat a.isLt
  rwa [BitVec.ofNat_toNat, BitVec.setWidth_eq] at this

/-- Two optional addresses are equal exactly when their flags are and they read the same. -/
theorem optional_eq_iff (v v' : Bool) (a a' : Word) :
    (if v then some a else none) = (if v' then some a' else none) ↔
      v = v' ∧ (if v then a else 0x0000#16) = (if v' then a' else 0x0000#16) := by
  cases v <;> cases v' <;> simp

/-- Two snapshots are equal when each of their parts is: the addresses by flag and reading, the memory by its slots. -/
theorem snapshot_eq_iff (s t : State) :
    s.snapshot = t.snapshot ↔
      s.stage = t.stage ∧ s.running = t.running ∧ s.halted = t.halted ∧ (s.hlV = t.hlV ∧ s.hlOut = t.hlOut) ∧
      s.pc = t.pc ∧ s.ir = t.ir ∧ s.acc = t.acc ∧ (s.marV = t.marV ∧ s.marOut = t.marOut) ∧ s.mbr = t.mbr ∧
      ∀ a, s.imem.readSlot a = t.imem.readSlot a := by
  simp only [State.snapshot, Snapshot.mk.injEq, optional_eq_iff, Memory.words_eq_iff]
  rfl

/-- Under the invariants MAR is as it reads. -/
theorem State.Inv.marOut_eq {s : State} (h : s.Inv) : s.marOut = s.mar := by
  rw [State.marOut]
  split_ifs with hv
  · rfl
  · exact (h.marUnset (by simpa using hv)).symm

/-- Under the invariants HL_ADDR is as it reads. -/
theorem State.Inv.hlOut_eq {s : State} (h : s.Inv) : s.hlOut = s.hlAddr := by
  rw [State.hlOut]
  split_ifs with hv
  · rfl
  · exact (h.highlightUnset (by simpa using hv)).symm

/-- The snapshot shows all of a state that meets the invariants but its hidden bits and coming samples. -/
theorem snapshot_eq_iff_of_inv {s t : State} (hs : s.Inv) (ht : t.Inv) :
    s.snapshot = t.snapshot ↔
      s = { t with busy := s.busy, cancel := s.cancel, rcPos := s.rcPos, pending := s.pending } := by
  constructor
  · intro h
    rw [snapshot_eq_iff, hs.marOut_eq, ht.marOut_eq, hs.hlOut_eq, ht.hlOut_eq] at h
    obtain ⟨hstage, hrun, hhalt, ⟨hhv, hha⟩, hpc, hir, hacc, ⟨hmv, hma⟩, hmbr, hslots⟩ := h
    have hmem := canonicalMemoriesAreTheirSlots _ _ hs.memoryWf ht.memoryWf hslots
    rw [← hstage, ← hrun, ← hhalt, ← hhv, ← hha, ← hpc, ← hir, ← hacc, ← hmv, ← hma, ← hmbr, ← hmem]
  · intro h
    rw [h]
    rfl

/-! ### The output ports (rule R160) -/

theorem Stage.code_injective {a b : Stage} (h : a.code = b.code) : a = b := by
  revert h
  cases a <;> cases b <;> decide

/-- The ports, read address by read address, show what the snapshot shows. -/
theorem outputs_eq_iff (s t : State) : (∀ a, s.outputs a = t.outputs a) ↔ s.snapshot = t.snapshot := by
  rw [snapshot_eq_iff]
  constructor
  · intro h
    have ports := h 0#4
    simp only [State.outputs, Outputs.mk.injEq] at ports
    obtain ⟨_, hpc, hmar, hhl, hir, hmbr, hacc, hmv, hhv, hstage, hrun, hhalt, _⟩ := ports
    exact ⟨Stage.code_injective hstage, hrun, hhalt, ⟨hhv, hhl⟩, hpc, hir, hacc, ⟨hmv, hmar⟩, hmbr,
      fun a => congrArg Outputs.memRdata (h a)⟩
  · rintro ⟨hstage, hrun, hhalt, ⟨hhv, hhl⟩, hpc, hir, hacc, ⟨hmv, hmar⟩, hmbr, hslots⟩ a
    simp only [State.outputs, hstage, hrun, hhalt, hhv, hhl, hpc, hir, hacc, hmv, hmar, hmbr, hslots]

/-! ### The register file by index (rule R20) -/

/-- A state with these five register values; MAR is set, so that it reads as its value. -/
def registerState (x : Fin 5 → Word) : State :=
  { State.reset with pc := x 0, ir := x 1, acc := x 2, marV := true, mar := x 3, mbr := x 4 }

theorem readReg_registerState (x : Fin 5 → Word) (r : Fin 5) : (registerState x).readReg r = x r := by
  fin_cases r <;> rfl

theorem readReg_setMemory (s : State) (a : SlotAddr) (w : Word) (r : Fin 5) : (s.setMemory a w).readReg r = s.readReg r := by
  fin_cases r <;> rfl

theorem readReg_resetOp (s : State) (r : Fin 5) : s.resetOp.readReg r = 0#16 := by
  fin_cases r <;> rfl

/-- Settles O49: the snapshot under the invariants, each port by its field, the ports against the snapshot, and the register
file. -/
theorem snapshotShowsAllButTheSequencer : Obligations.SnapshotShowsAllButTheSequencer := by
  refine ⟨fun s t => snapshot_eq_iff_of_inv, fun s a => ?ports, outputs_eq_iff, fun s => ⟨rfl, rfl, rfl, rfl, rfl⟩,
    fun x => ⟨registerState x, readReg_registerState x⟩, readReg_setMemory, readReg_resetOp⟩
  case ports =>
    refine ⟨rfl, rfl, rfl, rfl, rfl, rfl, rfl, rfl, rfl, rfl, rfl, ?stage, toNat_opField s.ir, pField_eq_decide s.ir,
      toNat_immField s.ir⟩
    change s.stage.code = _
    cases s.stage <;> rfl

end Sys2Proof.Machine
end

section
/-! PROOFS. The invariants of 10_state.md section 6 and of the staging registers (rules R24, R25, R29, R34, R141): one rule per
operation of the state, the step by its cases. -/

namespace Sys2Proof.Machine

/-! ### The invariants of rule R34, operation by operation -/

theorem inv_reset (samples : List EdgeInputs) : State.Inv { State.reset with pending := samples } where
  memoryWf := rfl
  marUnset _ := rfl
  highlightUnset _ := rfl
  runningBusy h := h
  drainCancelled h := by cases h
  haltedQuiet h := by cases h
  stageSeen h := by cases h

/-- Settles O42: the power-on state, with no sample to come. -/
theorem powerOnMeetsInv : Obligations.PowerOnMeetsInv := inv_reset []

theorem State.Inv.popped {s : State} (h : s.Inv) : s.popped.Inv where
  __ := h

theorem State.Inv.resetOp {s : State} (h : s.Inv) : s.resetOp.Inv where
  memoryWf := h.memoryWf
  marUnset _ := rfl
  highlightUnset _ := rfl
  runningBusy h := by cases h
  drainCancelled _ _ := rfl
  haltedQuiet h := by cases h
  stageSeen h := by cases h

theorem State.Inv.editPort {s : State} (h : s.Inv) (i : EdgeInputs) : (s.editPort i).Inv := by
  unfold State.editPort
  split
  · exact { h with memoryWf := Memory.wf_writeSlot _ _ h.memoryWf }
  · exact h

theorem State.Inv.fetchStage {s : State} (h : s.Inv) (hh : s.halted = false) : s.fetchStage.Inv where
  memoryWf := h.memoryWf
  marUnset hv := by cases hv
  highlightUnset hv := by cases hv
  runningBusy := h.runningBusy
  drainCancelled := h.drainCancelled
  haltedQuiet h1 := by simp [hh] at h1
  stageSeen hs := by cases hs

theorem State.Inv.decodeStage {s : State} (h : s.Inv) (hh : s.halted = false) : s.decodeStage.Inv where
  memoryWf := h.memoryWf
  marUnset := h.marUnset
  highlightUnset := h.highlightUnset
  runningBusy := h.runningBusy
  drainCancelled := h.drainCancelled
  haltedQuiet h1 := by simp [hh] at h1
  stageSeen hs := by cases hs

theorem State.Inv.runAllAccept {s : State} (h : s.Inv) (hh : s.halted = false) : s.runAllAccept.Inv where
  memoryWf := h.memoryWf
  marUnset := h.marUnset
  highlightUnset := h.highlightUnset
  runningBusy _ := rfl
  drainCancelled _ hr := by cases hr
  haltedQuiet h1 := by simp [hh] at h1
  stageSeen hs := by cases hs

theorem State.Inv.withRcPos {s : State} (h : s.Inv) (r : RcPos) : (s.withRcPos r).Inv where
  __ := h

/-- `LoopExit` asks for less than the invariants: what they say of the loop's bits becomes true by it. -/
theorem inv_loopExit {s : State} (hm : s.imem.wf = true) (hmar : s.marV = false → s.mar = 0#16)
    (hhl : s.hlV = false → s.hlAddr = 0#16) (hh : s.halted = true → s.stage = .idle ∧ s.hlV = false)
    (hs : s.stage ≠ .execute) : s.loopExit.Inv where
  memoryWf := hm
  marUnset := hmar
  highlightUnset := hhl
  runningBusy h := by cases h
  drainCancelled h := by cases h
  haltedQuiet h := ⟨rfl, rfl, hh h⟩
  stageSeen := hs

theorem State.Inv.loopExit {s : State} (h : s.Inv) : s.loopExit.Inv :=
  inv_loopExit h.memoryWf h.marUnset h.highlightUnset (fun hh => (h.haltedQuiet hh).2.2) h.stageSeen

/-- An Execute that ends the loop, be it by HLT or by the runaway guard. -/
theorem State.Inv.wordResult_loopExit {s : State} (h : s.Inv) (w : Word) : (wordResult w s).loopExit.Inv :=
  inv_loopExit h.memoryWf h.marUnset (fun _ => rfl) (fun _ => ⟨rfl, rfl⟩) (by simp)

/-- An Execute that does not end a loop: no loop is in flight, or it does not halt. -/
theorem State.Inv.wordResult {s : State} (h : s.Inv) {w : Word} (hq : (wordResult w s).halted = true → s.busy = false) :
    (wordResult w s).Inv where
  memoryWf := h.memoryWf
  marUnset := h.marUnset
  highlightUnset _ := rfl
  runningBusy := h.runningBusy
  drainCancelled := h.drainCancelled
  haltedQuiet hh := by
    have hb := hq hh
    have hr : s.running ≠ true := fun hr => by simp [h.runningBusy hr] at hb
    exact ⟨hb, by simpa using hr, rfl, rfl⟩
  stageSeen hs := by cases hs

/-! ### Every step keeps them -/

theorem QuietAction.keeps_inv {s u : State} (hu : QuietAction s u) (h : s.Inv) : u.Inv := by
  have notHalted (ha : s.accepts = true) : s.halted = false := (s.accepts_iff.1 ha).1
  cases hu with
  | nothing => exact h.popped
  | fetch ha => exact h.popped.fetchStage (notHalted ha)
  | decode ha => exact h.popped.decodeStage (notHalted ha)
  | execute ha => exact h.popped.wordResult fun _ => (s.accepts_iff.1 ha).2
  | run ha => exact h.popped.runAllAccept (notHalted ha)
  | exitF | exitD | exitX => exact h.popped.loopExit
  | stepF _ _ _ hh => exact (h.popped.fetchStage hh).withRcPos _
  | stepD _ _ hh => exact (h.popped.decodeStage hh).withRcPos _
  | lastX => exact h.popped.wordResult_loopExit _
  | stepX _ _ hh ho =>
    exact (h.popped.wordResult fun halted =>
      absurd ((wordResult_halted_iff (s := s.popped) hh s.mbr).1 halted) ho).withRcPos _

/-- Settles O43: power-on, reset and each action of an edge keep the invariants, and so does the edit after them. -/
theorem stepKeepsInv : Obligations.StepKeepsInv := by
  intro s t h hstep
  rcases step_cases hstep with ⟨_, rfl⟩ | ⟨_, _, rfl⟩ | ⟨_, u, hu, rfl⟩
  · exact s.popped.powerOn_eq ▸ inv_reset s.popped.pending
  · exact h.popped.resetOp.editPort _
  · exact (hu.keeps_inv h).editPort _

/-! ### The staging invariants, operation by operation -/

theorem opField_nopWord : opField Config.nopWord = 0#3 := by decide

theorem stagingInv_reset (samples : List EdgeInputs) : State.StagingInv { State.reset with pending := samples } where
  unsetWords _ := ⟨rfl, rfl⟩
  outOfRangeWord _ _ := rfl
  highlightIsMar h := by cases h
  haltInRange _ := Nat.zero_le _
  jumpInRange _ _ := Nat.zero_le _

/-- Settles O44: the power-on state, with no sample to come. -/
theorem powerOnMeetsStagingInv : Obligations.PowerOnMeetsStagingInv := stagingInv_reset []

theorem State.StagingInv.popped {s : State} (h : s.StagingInv) : s.popped.StagingInv where
  __ := h

theorem stagingInv_resetOp (s : State) : s.resetOp.StagingInv where
  __ := stagingInv_reset []

theorem State.StagingInv.editPort {s : State} (h : s.StagingInv) (i : EdgeInputs) : (s.editPort i).StagingInv := by
  unfold State.editPort
  split
  · exact { h with }
  · exact h

/-- A Fetch from outside the memory obtains `NOP_WORD`. -/
theorem Memory.fetchRead_of_out_of_range (m : Memory) {pc : Word} (h : 15 < pc.toNat) : m.fetchRead pc = Config.nopWord :=
  if_neg (by rw [Config.addrMax]; omega)

/-- What a Fetch obtains is `NOP_WORD` or was fetched from a PC in range. -/
theorem Memory.pc_in_range_of_fetchRead (m : Memory) {pc : Word} (h : opField (m.fetchRead pc) ≠ 0#3) : pc.toNat ≤ 15 := by
  by_contra hpc
  exact h (by rw [m.fetchRead_of_out_of_range (by omega), opField_nopWord])

theorem stagingInv_fetchStage (s : State) : s.fetchStage.StagingInv where
  unsetWords h := by cases h
  outOfRangeWord h _ := s.imem.fetchRead_of_out_of_range h
  highlightIsMar _ := ⟨rfl, rfl, rfl⟩
  haltInRange h := s.imem.pc_in_range_of_fetchRead (h ▸ by decide)
  jumpInRange h _ := s.imem.pc_in_range_of_fetchRead (h ▸ by decide)

theorem State.StagingInv.decodeStage {s : State} (h : s.StagingInv) : s.decodeStage.StagingInv where
  __ := h
  unsetWords hv := ⟨(h.unsetWords hv).1, (h.unsetWords hv).1⟩

theorem State.StagingInv.runAllAccept {s : State} (h : s.StagingInv) : s.runAllAccept.StagingInv where
  __ := h

theorem State.StagingInv.loopExit {s : State} (h : s.StagingInv) : s.loopExit.StagingInv where
  __ := h

theorem State.StagingInv.withRcPos {s : State} (h : s.StagingInv) (r : RcPos) : (s.withRcPos r).StagingInv where
  __ := h

/-- A clamped target is in range. -/
theorem jumpTarget_in_range (imm : Imm) : (jumpTarget imm).toNat ≤ 15 := by
  have target := toNat_jumpTarget imm
  rw [clamp_eq_min_max (by decide)] at target
  omega

/-- Execute of the staged word: HLT holds its PC, a JMP with an operand clamps it, and the rest is neither. -/
theorem State.StagingInv.wordResult {s : State} (h : s.StagingInv) : (wordResult s.mbr s).StagingInv where
  unsetWords := h.unsetWords
  outOfRangeWord := h.outOfRangeWord
  highlightIsMar hv := by cases hv
  haltInRange ho := by
    rcases wordPc_cases s.mbr s.pc with ⟨_, hpc⟩ | ⟨h4, _, _⟩ | ⟨h5, _, _⟩
    · exact (congrArg BitVec.toNat hpc).trans_le (h.haltInRange ho)
    · exact absurd (h4.symm.trans ho) (by decide)
    · exact absurd ho h5
  jumpInRange ho hp := by
    rcases wordPc_cases s.mbr s.pc with ⟨h5, _⟩ | ⟨_, _, hpc⟩ | ⟨_, hjmp, _⟩
    · exact absurd (h5.symm.trans ho) (by decide)
    · exact (congrArg BitVec.toNat hpc).trans_le (jumpTarget_in_range _)
    · exact absurd ⟨ho, hp⟩ hjmp

theorem QuietAction.keeps_stagingInv {s u : State} (hu : QuietAction s u) (h : s.StagingInv) : u.StagingInv := by
  cases hu with
  | nothing => exact h.popped
  | fetch => exact stagingInv_fetchStage _
  | decode => exact h.popped.decodeStage
  | execute => exact h.popped.wordResult
  | run => exact h.popped.runAllAccept
  | exitF | exitD | exitX => exact h.popped.loopExit
  | stepF => exact (stagingInv_fetchStage _).withRcPos _
  | stepD => exact h.popped.decodeStage.withRcPos _
  | lastX => exact h.popped.wordResult.loopExit
  | stepX => exact h.popped.wordResult.withRcPos _

/-- Settles O45: power-on, reset and each action of an edge keep the staging invariants, and so does the edit after them. -/
theorem stepKeepsStagingInv : Obligations.StepKeepsStagingInv := by
  intro s t h hstep
  rcases step_cases hstep with ⟨_, rfl⟩ | ⟨_, _, rfl⟩ | ⟨_, u, hu, rfl⟩
  · exact s.popped.powerOn_eq ▸ stagingInv_reset s.popped.pending
  · exact (stagingInv_resetOp _).editPort _
  · exact (hu.keeps_stagingInv h).editPort _

end Sys2Proof.Machine
end

section
/-! PROOFS. What a transition does not look at: runs that agree up to a part of the state that is wiped (`stage`, the highlight
and IR; ACC; the host's coming samples), and every clocked run as a run of events (rules R6, R161). -/

namespace Sys2Proof.Machine

/-! ### Wiping a part of the state that no transition reads -/

/-- The operations of the state that an edge is put together from. -/
inductive IsOperation : (State → State) → Prop where
  | popped : IsOperation State.popped
  | fetchStage : IsOperation State.fetchStage
  | decodeStage : IsOperation State.decodeStage
  | wordResult (w : Word) : IsOperation (wordResult w)
  | runAllAccept : IsOperation State.runAllAccept
  | loopExit : IsOperation State.loopExit
  | withRcPos (r : RcPos) : IsOperation (State.withRcPos · r)
  | resetOp : IsOperation State.resetOp
  | powerOn : IsOperation State.powerOn
  | setMemory (a : SlotAddr) (w : Word) : IsOperation (State.setMemory · a w)

/-- The fields that an edge decides by. -/
def State.control (s : State) : Word × Word × Bool × Bool × Bool × RcPos :=
  (s.pc, s.mbr, s.halted, s.busy, s.cancel, s.rcPos)

/-- The wiped part is of no account to the core: what the edge decides by stands outside it, and no operation of the state carries
it over into the rest. -/
structure Hides (wipe : State → State) : Prop where
  control : ∀ s, (wipe s).control = s.control
  operation : ∀ op, IsOperation op → ∀ s, wipe (op (wipe s)) = wipe (op s)

/-- An operation takes states that agree up to the wiped part to such states. -/
def Respects (wipe op : State → State) : Prop := ∀ s s', wipe s = wipe s' → wipe (op s) = wipe (op s')

theorem Hides.respects {wipe op : State → State} (hw : Hides wipe) (h : IsOperation op) : Respects wipe op := by
  intro s s' hs
  rw [← hw.operation op h s, hs, hw.operation op h s']

/-- A field outside the wiped part is the same in states that agree up to it. -/
theorem field_eq_of_wipe_eq {α : Type} {wipe : State → State} {f : State → α} (hf : ∀ s, f (wipe s) = f s) {s s' : State}
    (hs : wipe s = wipe s') : f s = f s' := by
  rw [← hf s, hs, hf s']

/-- States that agree up to the wiped part decide alike. -/
theorem Hides.control_eq {wipe : State → State} (hw : Hides wipe) {s s' : State} (hs : wipe s = wipe s') :
    s.pc = s'.pc ∧ s.mbr = s'.mbr ∧ s.halted = s'.halted ∧ s.busy = s'.busy ∧ s.cancel = s'.cancel ∧
      s.rcPos = s'.rcPos := by
  simpa only [State.control, Prod.mk.injEq] using field_eq_of_wipe_eq hw.control hs

theorem Hides.editPort {wipe : State → State} (hw : Hides wipe) (i : EdgeInputs) : Respects wipe (State.editPort · i) := by
  intro s s' hs
  unfold State.editPort
  split
  · exact hw.respects (.setMemory _ _) s s' hs
  · exact hs

/-! ### The edge and the run of states that agree up to the wiped part -/

/-- Two outcomes are next states that agree up to the wiped part. -/
def Alike (wipe : State → State) (o o' : Host.Outcome State Fault Refusal) : Prop :=
  ∃ t t', o = .next t ∧ o' = .next t' ∧ wipe t = wipe t'

section
variable {wipe : State → State} {s s' : State}

/-- An operation that the wiped part respects, carried on after outcomes that are alike. -/
theorem Alike.andThen {o o' : Host.Outcome State Fault Refusal} {op : State → State} (h : Alike wipe o o')
    (hop : Respects wipe op) :
    Alike wipe (andThen o fun t => .next (op t)) (andThen o' fun t => .next (op t)) := by
  obtain ⟨t, t', rfl, rfl, ht⟩ := h
  exact ⟨_, _, rfl, rfl, hop _ _ ht⟩

theorem Hides.afterExecute (hw : Hides wipe) : Respects wipe State.afterExecute := by
  intro s s' hs
  unfold State.afterExecute
  obtain ⟨hpc, _, hhalted, _⟩ := hw.control_eq hs
  rw [hhalted, hpc]
  split_ifs
  · exact hw.respects .loopExit _ _ hs
  · exact hw.respects .loopExit _ _ hs
  · exact hw.respects (.withRcPos _) _ _ hs

/-- Execute of MBR, which stands outside the wiped part. -/
theorem Hides.wordResult_mbr (hw : Hides wipe) (hs : wipe s = wipe s') :
    wipe (Machine.wordResult s.mbr s) = wipe (Machine.wordResult s'.mbr s') := by
  obtain ⟨_, hmbr, _⟩ := hw.control_eq hs
  rw [hmbr]
  exact hw.respects (.wordResult _) _ _ hs

theorem Hides.seqStep (hw : Hides wipe) (hs : wipe s = wipe s') : Alike wipe s.seqStep s'.seqStep := by
  obtain ⟨_, _, hhalted, _, hcancel, hrcPos⟩ := hw.control_eq hs
  cases hh : s'.halted with
  | true =>
    exact ⟨_, _, seqStep_of_halted (hhalted.trans hh), seqStep_of_halted hh, hw.respects .loopExit _ _ hs⟩
  | false =>
    cases hr : s'.rcPos with
    | f =>
      cases hc : s'.cancel with
      | true =>
        exact ⟨_, _, seqStep_of_cancelled (hrcPos.trans hr) (hcancel.trans hc), seqStep_of_cancelled hr hc,
          hw.respects .loopExit _ _ hs⟩
      | false =>
        exact ⟨_, _, seqStep_fetch (hhalted.trans hh) (hrcPos.trans hr) (hcancel.trans hc), seqStep_fetch hh hr hc,
          hw.respects (.withRcPos _) _ _ (hw.respects .fetchStage _ _ hs)⟩
    | d =>
      exact ⟨_, _, seqStep_decode (hhalted.trans hh) (hrcPos.trans hr), seqStep_decode hh hr,
        hw.respects (.withRcPos _) _ _ (hw.respects .decodeStage _ _ hs)⟩
    | x =>
      exact ⟨_, _, seqStep_execute (hhalted.trans hh) (hrcPos.trans hr), seqStep_execute hh hr,
        hw.afterExecute _ _ (hw.wordResult_mbr hs)⟩

theorem Hides.hostCommand (hw : Hides wipe) (hs : wipe s = wipe s') (c : Command) :
    Alike wipe (s.hostCommand c) (s'.hostCommand c) := by
  obtain ⟨_, _, hhalted, _⟩ := hw.control_eq hs
  cases hh : s'.halted with
  | true => exact ⟨_, _, hostCommand_of_halted (hhalted.trans hh) c, hostCommand_of_halted hh c, hs⟩
  | false =>
    have free : ¬ s.halted = true := by simp [hhalted, hh]
    have free' : ¬ s'.halted = true := by simp [hh]
    cases c with
    | none => exact ⟨_, _, rfl, rfl, hs⟩
    | fetch => exact ⟨_, _, if_neg free, if_neg free', hw.respects .fetchStage _ _ hs⟩
    | decode => exact ⟨_, _, if_neg free, if_neg free', hw.respects .decodeStage _ _ hs⟩
    | execute =>
      exact ⟨_, _, (if_neg free).trans (executeStage_eq s), (if_neg free').trans (executeStage_eq s'),
        hw.wordResult_mbr hs⟩
    | run => exact ⟨_, _, if_neg free, if_neg free', hw.respects .runAllAccept _ _ hs⟩

theorem Hides.step (hw : Hides wipe) (hs : wipe s = wipe s') (hin : s.nextInputs = s'.nextInputs) :
    Alike wipe (step s) (step s') := by
  obtain ⟨_, _, _, hbusy, _⟩ := hw.control_eq hs
  have hpopped := hw.respects .popped _ _ hs
  cases hp : s'.nextInputs.por with
  | true => exact ⟨_, _, step_of_por (hin ▸ hp), step_of_por hp, hw.respects .powerOn _ _ hpopped⟩
  | false =>
    cases hr : s'.nextInputs.rst with
    | true =>
      refine ⟨_, _, step_of_rst (hin ▸ hp) (hin ▸ hr), step_of_rst hp hr, ?_⟩
      rw [hin]
      exact hw.editPort _ _ _ (hw.respects .resetOp _ _ hpopped)
    | false =>
      have hq := (EdgeInputs.quiet_iff _).2 ⟨hp, hr⟩
      rw [step_of_quiet (hin ▸ hq), step_of_quiet hq, hin, hbusy]
      refine Alike.andThen ?_ (hw.editPort _)
      split_ifs
      · exact hw.seqStep hpopped
      · exact hw.hostCommand hpopped _

/-- Where the wiped part leaves the coming samples, whole runs are alike. -/
theorem Hides.run (hw : Hides wipe) (hpending : ∀ s, (wipe s).pending = s.pending) (k : Nat) (hs : wipe s = wipe s') :
    Alike wipe (s.run k) (s'.run k) := by
  induction k generalizing s s' with
  | zero => exact ⟨_, _, rfl, rfl, hs⟩
  | succ k ih =>
    have hin : s.nextInputs = s'.nextInputs := by
      rw [State.nextInputs, State.nextInputs, field_eq_of_wipe_eq hpending hs]
    obtain ⟨t, t', ht, ht', hwt⟩ := hw.step hs hin
    rw [State.run_succ k ht, State.run_succ k ht']
    exact ih hwt

end

/-! ### Three parts of the state that no transition reads -/

/-- The state with the host's coming samples taken away. -/
def State.withoutPending (s : State) : State := { s with pending := [] }

theorem hides_presentation : Hides State.withoutPresentation where
  control _ := rfl
  operation _ h _ := by cases h <;> rfl

theorem hides_acc : Hides State.withoutAcc where
  control _ := rfl
  operation _ h _ := by cases h <;> rfl

theorem hides_pending : Hides State.withoutPending where
  control _ := rfl
  operation _ h _ := by cases h <;> rfl

/-- Settles O48: no operation carries the presentation parts over into the rest of the state, and the run follows. -/
theorem presentationIsNeverRead : Obligations.PresentationIsNeverRead :=
  fun k _ _ hs => hides_presentation.run (fun _ => rfl) k hs

/-- Settles O50: no operation carries ACC over into the rest of the state, and the run follows. -/
theorem pathIndependentOfAcc : Obligations.PathIndependentOfAcc :=
  fun k _ _ hs => hides_acc.run (fun _ => rfl) k hs

/-! ### An edge is its events (rules R6, R161) -/

theorem andThen_next_right (o : Host.Outcome State Fault Refusal) : andThen o .next = o := by
  cases o <;> rfl

/-- One list of events after another. -/
theorem State.applyEvents_append (s : State) (es fs : List Event) :
    s.applyEvents (es ++ fs) = andThen (s.applyEvents es) (fun t => t.applyEvents fs) := by
  induction es generalizing s with
  | nil => rfl
  | cons e es ih =>
    simp only [List.cons_append, State.applyEvents]
    cases s.applyEvent e with
    | next t => exact ih t
    | fault | refused => rfl

theorem State.applyEvents_singleton (s : State) (e : Event) : s.applyEvents [e] = s.applyEvent e :=
  andThen_next_right (s.applyEvent e)

/-- With no loop in flight the gate of a command event is the command's own (rules R116, R150). -/
theorem applyEvents_command {s : State} (hb : s.busy = false) (c : Command) :
    s.applyEvents c.events = s.hostCommand c := by
  have accepts_eq : s.accepts = !s.halted := by simp [State.accepts, hb]
  cases c with
  | none => rfl
  | fetch | decode | execute | run =>
    rw [Command.events, State.applyEvents_singleton, State.applyEvent, State.hostCommand, accepts_eq]
    cases s.halted <;> rfl

/-- The first part of an edge, as at most one event. -/
theorem applyEvents_edgeAction (s : State) (i : EdgeInputs) :
    s.applyEvents (if i.rst then [.reset] else if s.busy then [.seqStep] else (commandOf i.cmd).events) =
      s.edgeAction i := by
  rw [State.edgeAction]
  split_ifs with hr hb
  · rfl
  · rw [State.applyEvents_singleton, State.applyEvent, if_pos hb]
  · exact applyEvents_command (by simpa using hb) _

/-- The memory edit of an edge, as at most one event. -/
theorem applyEvents_edit (s : State) (i : EdgeInputs) :
    s.applyEvents (if i.memWe then [.setMemory i.memWaddr i.memWdata] else []) = .next (s.editPort i) := by
  rw [State.editPort]
  split_ifs <;> rfl

theorem edge_eq_applyEvents (s : State) (i : EdgeInputs) : s.edge i = s.applyEvents (s.edgeEvents i) := by
  cases hp : i.por with
  | true =>
    rw [edge_of_por hp, State.edgeEvents, if_pos hp]
    rfl
  | false =>
    rw [edge_of_not_por hp, State.edgeEvents, if_neg (by simp [hp]), State.applyEvents_append, applyEvents_edgeAction]
    simp only [applyEvents_edit]

/-! ### A run is the events of its edges, and takes one sample for each -/

/-- The edge of a step does not look at the samples behind its own, and leaves them. -/
theorem edge_withPending {s t : State} (h : Machine.step s = .next t) (samples : List EdgeInputs) :
    State.edge { s with pending := samples } s.nextInputs = .next { t with pending := samples } := by
  obtain ⟨u, v, hu, hv, huv⟩ := hides_pending.step (s := s) (s' := { s with pending := s.nextInputs :: samples }) rfl rfl
  obtain rfl : t = u := by
    rw [h] at hu
    injection hu
  have samplesLeft : v.pending = samples := step_pending hv
  have hv' : v = { t with pending := samples } := by
    have := congrArg (fun w : State => { w with pending := samples }) huv
    rw [← samplesLeft] at this ⊢
    exact this.symm
  exact hv' ▸ hv

/-- The events of a run, whatever samples stand on the state they are applied to. -/
theorem applyEvents_runEvents (k : Nat) (s : State) (samples : List EdgeInputs) :
    ∃ t, s.run k = .next t ∧ State.applyEvents { s with pending := samples } (s.runEvents k) =
      .next { t with pending := samples } ∧ t.pending = s.pending.drop k := by
  induction k generalizing s with
  | zero => exact ⟨s, rfl, rfl, rfl⟩
  | succ k ih =>
    obtain ⟨u, hu⟩ := step_answers s
    obtain ⟨t, hrun, hevents, hpending⟩ := ih u
    have first : State.applyEvents { s with pending := samples } (s.popped.edgeEvents s.nextInputs) =
        .next { u with pending := samples } :=
      (edge_eq_applyEvents { s with pending := samples } s.nextInputs).symm.trans (edge_withPending hu samples)
    refine ⟨t, by rw [State.run_succ k hu, hrun], ?_, ?_⟩
    · rw [State.runEvents_succ k hu, State.applyEvents_append, first, andThen_next, hevents]
    · rw [hpending, step_pending hu, List.drop_tail]

/-- Settles O25: `edge_eq_applyEvents`, and `applyEvents_runEvents` with the state's own samples. -/
theorem clockedRunIsAnEventRun : Obligations.ClockedRunIsAnEventRun :=
  ⟨edge_eq_applyEvents, fun k s => applyEvents_runEvents k s s.pending⟩

end Sys2Proof.Machine
end

section
/-! PROOFS. What one step can do to each piece of state: the step of an Execute (rules R119, R153), the write matrix of
10_state.md section 8, the way PC leaves and re-enters its range (rule R34 (a)), the end of a loop (rules R151 to R154), and the
halted core (60_exceptions.md section 6). -/

namespace Sys2Proof.Machine

/-! ### The step of an Execute -/

/-- Settles O22: `step_of_executes`, by hand and by the sequencer. -/
theorem stepRunsDecodedInstruction : Obligations.StepRunsDecodedInstruction := by
  refine ⟨fun s ha hc hq => ⟨_, exec_decodeWord s.mbr s.popped, ?byHand⟩,
    fun s hb hr hh hq => ⟨_, exec_decodeWord s.mbr s.popped, ?bySequencer⟩⟩
  case byHand =>
    obtain ⟨_, hb⟩ := s.accepts_iff.1 ha
    rw [step_of_executes (.inr ⟨ha, hc⟩) hq, if_neg (by simp [hb])]
  case bySequencer => rw [step_of_executes (.inl ⟨hb, hr, hh⟩) hq, if_pos hb]

/-! ### The columns of the write matrix -/

/-- ACC, PC and `halted` change in an Execute only, to what the word in MBR makes of them. -/
theorem QuietAction.executes_or_eq {s u : State} (h : QuietAction s u) :
    (s.Executes ∧ u.acc = wordAcc s.mbr s.acc ∧ u.pc = wordPc s.mbr s.pc) ∨ (u.acc = s.acc ∧ u.pc = s.pc) := by
  cases h with
  | execute ha hc => exact .inl ⟨.inr ⟨ha, hc⟩, rfl, rfl⟩
  | lastX hb hr hh | stepX hb hr hh => exact .inl ⟨.inl ⟨hb, hr, hh⟩, rfl, rfl⟩
  | nothing | fetch | decode | run | exitF | stepF | exitD | stepD | exitX => exact .inr ⟨rfl, rfl⟩

/-- MAR and its flag change in a Fetch only. -/
theorem QuietAction.fetches_or_mar_eq {s u : State} (h : QuietAction s u) :
    (s.Fetches ∧ u.marV = true ∧ u.mar = s.pc) ∨ (u.marV = s.marV ∧ u.mar = s.mar) := by
  cases h with
  | fetch ha hc => exact .inl ⟨.inr ⟨ha, hc⟩, rfl, rfl⟩
  | stepF hb hr hc hh => exact .inl ⟨.inl ⟨hb, hr, hc, hh⟩, rfl, rfl⟩
  | nothing | decode | execute | run | exitF | exitD | stepD | exitX | lastX | stepX => exact .inr ⟨rfl, rfl⟩

/-- The highlight changes in a Fetch and in an Execute only. -/
theorem QuietAction.highlight_cases {s u : State} (h : QuietAction s u) :
    (s.Fetches ∨ s.Executes) ∨ (u.hlV = s.hlV ∧ u.hlAddr = s.hlAddr) := by
  cases h with
  | fetch ha hc => exact .inl (.inl (.inr ⟨ha, hc⟩))
  | stepF hb hr hc hh => exact .inl (.inl (.inl ⟨hb, hr, hc, hh⟩))
  | execute ha hc => exact .inl (.inr (.inr ⟨ha, hc⟩))
  | lastX hb hr hh | stepX hb hr hh => exact .inl (.inr (.inl ⟨hb, hr, hh⟩))
  | nothing | decode | run | exitF | exitD | stepD | exitX => exact .inr ⟨rfl, rfl⟩

/-- `stage` changes in a stage transition and in an accepted RUN only. -/
theorem QuietAction.stage_cases {s u : State} (h : QuietAction s u) :
    (s.Fetches ∨ s.Decodes ∨ s.Executes ∨ s.AcceptsRun) ∨ u.stage = s.stage := by
  cases h with
  | fetch ha hc => exact .inl (.inl (.inr ⟨ha, hc⟩))
  | stepF hb hr hc hh => exact .inl (.inl (.inl ⟨hb, hr, hc, hh⟩))
  | decode ha hc => exact .inl (.inr (.inl (.inr ⟨ha, hc⟩)))
  | stepD hb hr hh => exact .inl (.inr (.inl (.inl ⟨hb, hr, hh⟩)))
  | execute ha hc => exact .inl (.inr (.inr (.inl (.inr ⟨ha, hc⟩))))
  | lastX hb hr hh | stepX hb hr hh => exact .inl (.inr (.inr (.inl (.inl ⟨hb, hr, hh⟩))))
  | run ha hc => exact .inl (.inr (.inr (.inr ⟨ha, hc⟩)))
  | nothing | exitF | exitD | exitX => exact .inr rfl

/-- The loop's bits: an accepted RUN sets them, a loop in flight ends or moves `rc_pos`, and all else leaves them. -/
theorem QuietAction.loopBits_cases {s u : State} (h : QuietAction s u) :
    s.AcceptsRun ∨
    (s.busy = true ∧ u.running = false ∧ u.busy = false ∧ u.rcPos = .f ∧ u.cancel = s.cancel) ∨
    (s.busy = true ∧ u.running = s.running ∧ u.busy = s.busy ∧ u.cancel = s.cancel) ∨
    (u.running = s.running ∧ u.busy = s.busy ∧ u.rcPos = s.rcPos ∧ u.cancel = s.cancel) := by
  cases h with
  | run ha hc => exact .inl ⟨ha, hc⟩
  | exitF hb | exitD hb | exitX hb | lastX hb => exact .inr (.inl ⟨hb, rfl, rfl, rfl, rfl⟩)
  | stepF hb | stepD hb | stepX hb => exact .inr (.inr (.inl ⟨hb, rfl, rfl, rfl⟩))
  | nothing | fetch | decode | execute => exact .inr (.inr (.inr ⟨rfl, rfl, rfl, rfl⟩))

/-- The words that write ACC: an operand, and one of the opcode numbers 1 to 3. -/
theorem of_wordAcc_ne {w acc : Word} (h : wordAcc w acc ≠ acc) :
    pField w = true ∧ (opField w = 1#3 ∨ opField w = 2#3 ∨ opField w = 3#3) := by
  unfold wordAcc at h
  split_ifs at h with hp h1 h2 h3
  · exact absurd rfl h
  · exact ⟨by simpa using hp, .inl h1⟩
  · exact ⟨by simpa using hp, .inr (.inl h2)⟩
  · exact ⟨by simpa using hp, .inr (.inr h3)⟩
  · exact absurd rfl h

/-- The words that write PC are all but HLT. -/
theorem of_wordPc_ne {w pc : Word} (h : wordPc w pc ≠ pc) : opField w ≠ 5#3 :=
  fun h5 => h (if_pos h5)

/-- Settles O47: each conjunct is its column of the matrix, read through the edit, which leaves all but the memory. -/
theorem writeMatrix : Obligations.WriteMatrix := by
  intro s t hstep hq
  obtain ⟨hpor, _⟩ := s.nextInputs.quiet_iff.1 hq
  have himem := step_imem hstep hpor
  obtain ⟨registers, _⟩ := editSeenAtNextFetchOnly
  obtain ⟨_, _, decoded⟩ := registers s t hstep hq
  obtain ⟨u, hu, e⟩ := step_quiet_action hq
  obtain rfl : u.editPort s.nextInputs = t := by rw [e] at hstep; injection hstep
  simp only [State.editPort_pc, State.editPort_acc, State.editPort_ir, State.editPort_marV, State.editPort_mar,
    State.editPort_mbr, State.editPort_stage, State.editPort_halted, State.editPort_hlV, State.editPort_hlAddr,
    State.editPort_running, State.editPort_busy, State.editPort_cancel, State.editPort_rcPos] at decoded ⊢
  refine ⟨fun h => ?pc, fun h => ?acc, fun h => ?ir, fun h => ?marV, fun h => ?mar,
    hu.fetches_or_mbr_eq.resolve_right, hu.stage_cases.resolve_right, fun h => ?halted,
    fun h => hu.highlight_cases.resolve_right fun same => h same.1,
    fun h => hu.highlight_cases.resolve_right fun same => h same.2, fun h => ?running, fun h => ?busy, fun h => ?cancel,
    fun h => ?rcPos, fun h => ?imem⟩
  case pc =>
    rcases hu.executes_or_eq with ⟨hx, _, hpc⟩ | ⟨_, hpc⟩
    · exact ⟨hx, of_wordPc_ne (hpc ▸ h)⟩
    · exact absurd hpc h
  case acc =>
    rcases hu.executes_or_eq with ⟨hx, hacc, _⟩ | ⟨hacc, _⟩
    · exact ⟨hx, of_wordAcc_ne (hacc ▸ h)⟩
    · exact absurd hacc h
  case ir =>
    have hd := hu.decodes_or_ir_eq.resolve_right h
    exact ⟨hd, decoded hd⟩
  case marV =>
    rcases hu.fetches_or_mar_eq with ⟨hf, hv, _⟩ | ⟨hv, _⟩
    · exact ⟨hf, hv⟩
    · exact absurd hv h
  case mar =>
    rcases hu.fetches_or_mar_eq with ⟨hf, _, hm⟩ | ⟨_, hm⟩
    · exact ⟨hf, hm⟩
    · exact absurd hm h
  case halted =>
    obtain ⟨hx, ho, _⟩ := hu.halted_cases.resolve_left h
    exact ⟨hx, ho⟩
  case running =>
    rcases hu.loopBits_cases with hrun | ⟨hb, _, hb', _⟩ | ⟨_, hr, _⟩ | ⟨hr, _⟩
    · exact .inl hrun
    · exact .inr ⟨hb, hb'⟩
    · exact absurd hr h
    · exact absurd hr h
  case busy =>
    rcases hu.loopBits_cases with hrun | ⟨hb, hr, _, hpos, _⟩ | ⟨_, _, hb, _⟩ | ⟨_, hb, _⟩
    · exact .inl hrun
    · exact .inr ⟨hb, hr, hpos⟩
    · exact absurd hb h
    · exact absurd hb h
  case cancel =>
    rcases hu.loopBits_cases with hrun | ⟨_, _, _, _, hc⟩ | ⟨_, _, _, hc⟩ | ⟨_, _, _, hc⟩
    · exact hrun
    · exact absurd hc h
    · exact absurd hc h
    · exact absurd hc h
  case rcPos =>
    rcases hu.loopBits_cases with hrun | ⟨hb, _⟩ | ⟨hb, _⟩ | ⟨_, _, hpos, _⟩
    · exact .inl hrun
    · exact .inr hb
    · exact .inr hb
    · exact absurd hpos h
  case imem =>
    by_contra hw
    exact h (himem.trans (if_neg hw))

/-! ### PC and its range (rule R34 (a)) -/

/-- Everything a step can do to PC: power-on and reset clear it, an Execute takes it to the word's nextPC, all else leaves it. -/
theorem step_pc_cases {s t : State} (h : step s = .next t) :
    (s.nextInputs.quiet = false ∧ t.pc = 0#16) ∨ (s.Executes ∧ t.pc = wordPc s.mbr s.pc) ∨ t.pc = s.pc := by
  rcases step_cases h with ⟨hp, rfl⟩ | ⟨_, hr, rfl⟩ | ⟨_, u, hu, rfl⟩
  · exact .inl ⟨by simp [EdgeInputs.quiet, hp], rfl⟩
  · exact .inl ⟨by simp [EdgeInputs.quiet, hr], by simp⟩
  · rw [State.editPort_pc]
    rcases hu.executes_or_eq with ⟨hx, _, hpc⟩ | ⟨_, hpc⟩
    · exact .inr (.inl ⟨hx, hpc⟩)
    · exact .inr (.inr hpc)

/-- An Execute takes PC out of its range from 15 to 16 only, by the incrementer. -/
theorem of_wordPc_leaves_range {w pc : Word} (hin : pc.toNat ≤ 15) (hout : 15 < (wordPc w pc).toNat) :
    pc = 15#16 ∧ wordPc w pc = 16#16 ∧ opField w ≠ 5#3 ∧ ¬ (opField w = 4#3 ∧ pField w = true) := by
  rcases wordPc_cases w pc with ⟨_, hpc⟩ | ⟨_, _, hpc⟩ | ⟨h5, hjmp, hpc⟩
  · rw [hpc] at hout
    omega
  · have := jumpTarget_in_range (immField w)
    rw [hpc] at hout
    omega
  · have inc := toNat_pcInc pc
    rw [hpc] at hout ⊢
    have h15 : pc = 15#16 := BitVec.eq_of_toNat_eq (by rw [BitVec.toNat_ofNat]; omega)
    exact ⟨h15, h15 ▸ rfl, h5, hjmp⟩

/-- Settles O52: `step_pc_cases`; a PC of 0 or an unchanged one is no way out, and Execute leaves by `of_wordPc_leaves_range`. -/
theorem pcLeavesRangeOnlyFromFifteen : Obligations.PcLeavesRangeOnlyFromFifteen := by
  intro s t h hin hout
  rcases step_pc_cases h with ⟨_, hpc⟩ | ⟨hx, hpc⟩ | hpc
  · simp [hpc] at hout
  · rw [hpc] at hout ⊢
    obtain ⟨h15, h16, hop⟩ := of_wordPc_leaves_range hin hout
    exact ⟨h15, h16, hx, hop⟩
  · rw [hpc] at hout
    omega

/-- Under the staging invariants a PC out of range is incremented by every Execute. -/
theorem State.StagingInv.wordPc_eq_pcInc {s : State} (h : s.StagingInv) (hout : 15 < s.pc.toNat) :
    wordPc s.mbr s.pc = pcInc s.pc := by
  rcases wordPc_cases s.mbr s.pc with ⟨h5, _⟩ | ⟨h4, hp, _⟩ | ⟨_, _, hpc⟩
  · exact absurd hout (h.haltInRange h5).not_gt
  · exact absurd hout (h.jumpInRange h4 hp).not_gt
  · exact hpc

/-- The incrementer comes back into range at its wrap only. -/
theorem of_pcInc_enters_range {pc : Word} (hout : 15 < pc.toNat) (hin : (pcInc pc).toNat ≤ 15) :
    pc = 0xFFFF#16 ∧ pcInc pc = 0#16 := by
  have inc := toNat_pcInc pc
  have hlt := pc.isLt
  have hmax : pc = 0xFFFF#16 := BitVec.eq_of_toNat_eq (by rw [BitVec.toNat_ofNat]; omega)
  exact ⟨hmax, hmax ▸ rfl⟩

/-- Settles O53: `step_pc_cases`, and the incrementer for every Execute of a PC out of range. -/
theorem pcOutOfRangeReturnsOnlyByReset : Obligations.PcOutOfRangeReturnsOnlyByReset := by
  intro s t hinv h hout hin
  rcases step_pc_cases h with ⟨hq, _⟩ | ⟨hx, hpc⟩ | hpc
  · exact .inl hq
  · rw [hpc, hinv.wordPc_eq_pcInc hout] at hin ⊢
    obtain ⟨hmax, hzero⟩ := of_pcInc_enters_range hout hin
    exact .inr ⟨hx, hmax, hzero⟩
  · rw [hpc] at hin
    omega

/-! ### The end of a loop (rules R151 to R154) -/

/-- What ends a loop that is not halted: HLT or the runaway guard at X, or `cancel` at F. -/
theorem QuietAction.of_loop_ends {s u : State} (hu : QuietAction s u) (hb : s.busy = true) (hh : s.halted = false)
    (hend : u.busy = false) :
    u.running = false ∧
    ((s.rcPos = .x ∧ opField s.mbr = 5#3 ∧ u.halted = true ∧ u.pc = s.pc) ∨
     (s.rcPos = .x ∧ opField s.mbr ≠ 5#3 ∧ u.halted = false ∧ u.pc = wordPc s.mbr s.pc ∧ 15 < u.pc.toNat) ∨
     (s.rcPos = .f ∧ s.cancel = true ∧ u.halted = false ∧ u.pc = s.pc)) := by
  have free {p : Prop} (ha : s.accepts = true) : p := by simp [State.accepts, hb] at ha
  have flying {p : Prop} (h : s.busy = false) : p := by simp [hb] at h
  have halts {p : Prop} (h : s.halted = true) : p := by simp [hh] at h
  cases hu with
  | nothing h => exact flying h
  | fetch ha | decode ha | execute ha | run ha => exact free ha
  | stepF | stepD | stepX => exact flying hend
  | exitD _ _ h | exitX _ _ h => exact halts h
  | exitF _ hr hc => exact ⟨rfl, .inr (.inr ⟨hr, hc.resolve_right halts, hh, rfl⟩)⟩
  | lastX _ hr _ he =>
    by_cases h5 : opField s.mbr = 5#3
    · exact ⟨rfl, .inl ⟨hr, h5, by simp [h5], if_pos h5⟩⟩
    · exact ⟨rfl, .inr (.inl ⟨hr, h5, by simp [hh, h5], rfl, he.resolve_left h5⟩)⟩

/-- Settles O32: a reset leaves `busy`, so the loop ends by an action of the edge, in the ways of `of_loop_ends`. -/
theorem loopEndsInThreeWays : Obligations.LoopEndsInThreeWays := by
  intro s t hb hh hp h hend
  rcases step_cases h with ⟨hp', _⟩ | ⟨_, _, rfl⟩ | ⟨hq, u, hu, rfl⟩
  · simp [hp] at hp'
  · simp [hb] at hend
  · obtain ⟨_, hr⟩ := s.nextInputs.quiet_iff.1 hq
    simp only [State.editPort_busy] at hend
    simp only [State.editPort_running, State.editPort_halted, State.editPort_pc]
    obtain ⟨hrun, hways⟩ := hu.of_loop_ends hb hh hend
    refine ⟨hrun, hr, ?_⟩
    rcases hways with hlt | ⟨hx, h5, hh', _, hpc⟩ | cancelled
    · exact .inl hlt
    · exact .inr (.inl ⟨hx, h5, hh', hpc⟩)
    · exact .inr (.inr cancelled)

/-- Settles O29: of the three ends of a loop only the guard leaves a core at X not halted, and it leaves the range at 16. -/
theorem runawayGuardStopsAtSixteen : Obligations.RunawayGuardStopsAtSixteen := by
  intro s t hb hh hx hin hq h hend hrunning
  obtain ⟨u, hu, e⟩ := step_quiet_action hq
  obtain rfl : u.editPort s.nextInputs = t := by rw [e] at h; injection h
  simp only [State.editPort_busy, State.editPort_halted] at hend hrunning
  simp only [State.editPort_running, State.editPort_pc]
  obtain ⟨hrun, ⟨_, _, hh', _⟩ | ⟨_, _, _, hpc, hout⟩ | ⟨hf, _⟩⟩ := hu.of_loop_ends hb hh hend
  · simp [hrunning] at hh'
  · rw [hpc] at hout ⊢
    obtain ⟨h15, h16, h5, hjmp⟩ := of_wordPc_leaves_range hin hout
    exact ⟨h15, h16, hrun, h5, hjmp⟩
  · simp [hx] at hf

/-! ### The halted core (60_exceptions.md section 6) -/

/-- What holds of all coming samples and of the idle one holds of the next. -/
theorem nextInputs_of_forall {s : State} {P : EdgeInputs → Prop} (h : ∀ i ∈ s.pending, P i) (hidle : P idleInputs) :
    P s.nextInputs := by
  unfold State.nextInputs
  cases hp : s.pending with
  | nil => exact hidle
  | cons i rest => exact h i (by simp [hp])

/-- Settles O41, by induction on the edges: each one does its edit alone. -/
theorem haltedCoreKeepsItsState : Obligations.HaltedCoreKeepsItsState := by
  intro k
  induction k with
  | zero => exact fun s _ _ _ => ⟨s, rfl, rfl, rfl, fun _ => rfl⟩
  | succ k ih =>
    intro s hh hb hq
    have hstep := step_of_halted_free_quiet hh hb (nextInputs_of_forall hq rfl)
    generalize hu : s.popped.editPort s.nextInputs = u at hstep
    have hkept : { u with imem := s.imem, pending := s.pending } = s := by rw [← hu, editPort_eq]; rfl
    have hsamples : u.pending = s.pending.tail := step_pending hstep
    have rest {P : EdgeInputs → Prop} (h : ∀ i ∈ s.pending, P i) : ∀ i ∈ u.pending, P i :=
      fun i hi => h i (List.mem_of_mem_tail (hsamples ▸ hi))
    obtain ⟨t, hrun, hkept', hsamples', himem⟩ := ih u (by simp [← hu, hh]) (by simp [← hu, hb]) (rest hq)
    refine ⟨t, by rw [State.run_succ k hstep, hrun], ?_, by rw [hsamples', hsamples, List.drop_tail], fun hw => ?_⟩
    · calc { t with imem := s.imem, pending := s.pending }
          = { { t with imem := u.imem, pending := u.pending } with imem := s.imem, pending := s.pending } := rfl
        _ = s := by rw [hkept', hkept]
    · rw [himem (rest hw), ← hu, editPort_of_not_memWe (nextInputs_of_forall hw rfl), State.popped_imem]

end Sys2Proof.Machine
end

section
/-! PROOFS. Runs of a few edges without edits, as one equation each: a full cycle by hand or by the sequencer (41_cycle_fsm.md
section 2), a RUN from a PC out of range (44_run_controller.md section 2) and the drain after a reset (section 3). -/

namespace Sys2Proof.Machine

section
variable (s : State) {i j k : EdgeInputs} (rest : List EdgeInputs)

/-! ### A full cycle -/

/-- A full cycle by hand: the Execute of the word at PC, once it is fetched and decoded. -/
theorem run_cycle_byHand (ha : s.accepts = true) (hi : i.commandOnly = true) (hj : j.commandOnly = true)
    (hk : k.commandOnly = true) (hci : i.cmd = 1#3) (hcj : j.cmd = 2#3) (hck : k.cmd = 3#3) :
    State.run { s with pending := i :: j :: k :: rest } 3 =
      .next (wordResult (s.imem.fetchRead s.pc) (State.fetchStage { s with pending := rest }).decodeStage) :=
  have fetched := step_of_asks_fetch (s := { s with pending := i :: j :: k :: rest }) ha ⟨hci, hi⟩
  have decoded := step_of_asks_decode (s := State.fetchStage { s with pending := j :: k :: rest }) ha ⟨hcj, hj⟩
  have executed := step_of_asks_execute (s := (State.fetchStage { s with pending := k :: rest }).decodeStage) ha ⟨hck, hk⟩
  (State.run_succ 2 fetched).trans ((State.run_succ 1 decoded).trans
    (State.run_succ 0 (executed.trans (exec_decodeWord _ _))))

/-- A full cycle of the sequencer: the same Execute, and the checks that end the loop. -/
theorem run_cycle_bySequencer (hb : s.busy = true) (hr : s.rcPos = .f) (hc : s.cancel = false) (hh : s.halted = false)
    (hi : i.commandOnly = true) (hj : j.commandOnly = true) (hk : k.commandOnly = true) :
    State.run { s with pending := i :: j :: k :: rest } 3 =
      .next (wordResult (s.imem.fetchRead s.pc)
        ((State.fetchStage { s with pending := rest }).decodeStage.withRcPos .x)).afterExecute :=
  have fetched := (step_of_busy (s := { s with pending := i :: j :: k :: rest }) hb hi).trans (seqStep_fetch hh hr hc)
  have decoded := (step_of_busy (s := (State.fetchStage { s with pending := j :: k :: rest }).withRcPos .d) hb hj).trans
    (seqStep_decode hh rfl)
  have executed :=
    (step_of_busy (s := (State.fetchStage { s with pending := k :: rest }).decodeStage.withRcPos .x) hb hk).trans
      (seqStep_execute hh rfl)
  (State.run_succ 2 fetched).trans ((State.run_succ 1 decoded).trans (State.run_succ 0 executed))

end

/-- A state with its coming samples written out. -/
theorem State.eq_withPending {s : State} {samples : List EdgeInputs} (h : s.pending = samples) :
    s = { s with pending := samples } := by
  rw [← h]

/-- Settles O23: the two full cycles, each field read off its equation; the loop's checks leave all of them. -/
theorem cycleRunsInstructionAtPc : Obligations.CycleRunsInstructionAtPc := by
  intro s i j k rest hp hi hj hk hh hway
  have samples := congrArg (State.run · 3) (State.eq_withPending hp)
  rcases hway with ⟨hb, hci, hcj, hck⟩ | ⟨hb, hr, hc⟩
  · have cycle := run_cycle_byHand s rest (s.accepts_iff.2 ⟨hh, hb⟩) hi hj hk hci hcj hck
    refine ⟨_, _, exec_decodeWord _ s, samples.trans cycle, ?_⟩
    simp
  · have cycle := run_cycle_bySequencer s rest hb hr hc hh hi hj hk
    refine ⟨_, _, exec_decodeWord _ s, samples.trans cycle, ?_⟩
    rw [afterExecute_eq]
    simp

/-! ### A RUN from a PC out of range -/

/-- Execute of `NOP_WORD` only advances PC. -/
theorem wordResult_nopWord (s : State) : wordResult Config.nopWord s = advanceResult s := by
  have answer := exec_decodeWord Config.nopWord s
  have decoded : decodeWord Config.nopWord = .nop false 0#12 := by decide
  rw [decoded, exec_nop] at answer
  injection answer with answer
  exact answer.symm

/-- A cycle of the sequencer from a PC out of range, below its wrap: `NOP_WORD`, then the runaway guard. -/
theorem run_cycle_out_of_range (s : State) {i j k : EdgeInputs} (rest : List EdgeInputs) (hb : s.busy = true)
    (hr : s.rcPos = .f) (hc : s.cancel = false) (hh : s.halted = false) (hout : 15 < s.pc.toNat) (hwrap : s.pc.toNat < 65535)
    (hi : i.commandOnly = true) (hj : j.commandOnly = true) (hk : k.commandOnly = true) :
    State.run { s with pending := i :: j :: k :: rest } 3 =
      .next (advanceResult (State.fetchStage { s with pending := rest }).decodeStage).loopExit := by
  rw [run_cycle_bySequencer s rest hb hr hc hh hi hj hk, s.imem.fetchRead_of_out_of_range hout, wordResult_nopWord,
    afterExecute_of_ends]
  · rfl
  · have inc := toNat_pcInc s.pc
    exact .inr (show 15 < (pcInc s.pc).toNat by omega)

/-- Settles O30: the accepted RUN, and one cycle out of range. -/
theorem runOutOfRangeAdvancesByOne : Obligations.RunOutOfRangeAdvancesByOne := by
  intro s r i j k rest ha hout hwrap hp hcr hr hi hj hk
  obtain ⟨hh, _⟩ := s.accepts_iff.1 ha
  have samples := congrArg (State.run · 4) (State.eq_withPending hp)
  have accepted := step_of_asks_run (s := { s with pending := r :: i :: j :: k :: rest }) ha ⟨hcr, hr⟩
  have cycle := run_cycle_out_of_range s.runAllAccept rest rfl rfl rfl hh hout hwrap hi hj hk
  refine (samples.trans ((State.run_succ 3 accepted).trans cycle)).trans (congrArg _ ?_)
  simp [advanceResult, State.loopExit, State.commitExecute, State.decodeStage, State.fetchStage, State.runAllAccept,
    s.imem.fetchRead_of_out_of_range hout, pcInc]

/-! ### The drain after a reset -/

section
variable {s : State} {i j k : EdgeInputs} (rest : List EdgeInputs)

/-- A cancelled loop at F ends on its next edge. -/
theorem run_drain_f (hb : s.busy = true) (hr : s.rcPos = .f) (hc : s.cancel = true) (hi : i.commandOnly = true) :
    State.run { s with pending := i :: rest } 1 = .next (State.loopExit { s with pending := rest }) :=
  State.run_succ 0 ((step_of_busy (s := { s with pending := i :: rest }) hb hi).trans (seqStep_of_cancelled hr hc))

/-- Step X on `NOP_WORD` from a PC below 15 advances PC by 1 and goes on at F. -/
theorem seqStep_nopWord (hr : s.rcPos = .x) (hh : s.halted = false) (hm : s.mbr = Config.nopWord) (hpc : s.pc.toNat < 15) :
    s.seqStep = .next ((advanceResult s).withRcPos .f) := by
  have inRange : (advanceResult s).pc.toNat ≤ 15 := by
    obtain ⟨_, hpc', _⟩ := advanceResult_effect s
    omega
  rw [seqStep_execute hh hr, hm, wordResult_nopWord, afterExecute_of_goes_on (t := advanceResult s) hh inRange]

/-- A cancelled loop at X with `NOP_WORD` in MBR and a PC below 15 advances PC by 1 and ends. -/
theorem run_drain_x (hb : s.busy = true) (hr : s.rcPos = .x) (hc : s.cancel = true) (hh : s.halted = false)
    (hm : s.mbr = Config.nopWord) (hpc : s.pc.toNat < 15) (hi : i.commandOnly = true) (hj : j.commandOnly = true) :
    State.run { s with pending := i :: j :: rest } 2 = .next (advanceResult { s with pending := rest }).loopExit :=
  have executed := (step_of_busy (s := { s with pending := i :: j :: rest }) hb hi).trans (seqStep_nopWord hr hh hm hpc)
  (State.run_succ 1 executed).trans
    (run_drain_f (s := (advanceResult s).withRcPos .f) rest hb rfl hc hj)

/-- A cancelled loop at D decodes, and goes on as from X. -/
theorem run_drain_d (hb : s.busy = true) (hr : s.rcPos = .d) (hc : s.cancel = true) (hh : s.halted = false)
    (hm : s.mbr = Config.nopWord) (hpc : s.pc.toNat < 15) (hi : i.commandOnly = true) (hj : j.commandOnly = true)
    (hk : k.commandOnly = true) :
    State.run { s with pending := i :: j :: k :: rest } 3 =
      .next (advanceResult (State.decodeStage { s with pending := rest })).loopExit :=
  have decoded := (step_of_busy (s := { s with pending := i :: j :: k :: rest }) hb hi).trans (seqStep_decode hh hr)
  (State.run_succ 2 decoded).trans (run_drain_x (s := s.decodeStage.withRcPos .x) rest hb rfl hc hh hm hpc hj hk)

end

/-- Settles O31: the reset edge, and the drain from each of the loop's three positions. -/
theorem drainAfterReset : Obligations.DrainAfterReset := by
  intro s r i j k rest hb hp hrst hw hi hj hk
  have reset (samples : List EdgeInputs) := step_reset_sample s samples hp hrst hw
  refine ⟨fun hr => ?fromF, fun hr => ?fromX, fun hr => ?fromD⟩
  case fromF =>
    refine ((State.run_succ 1 (reset _)).trans (run_drain_f (s := s.resetOp) rest hb hr rfl hi)).trans (congrArg _ ?_)
    rw [State.loopExit, ← hr]
    rfl
  case fromX =>
    have drained := run_drain_x (s := s.resetOp) rest hb hr rfl rfl rfl (by simp) hi hj
    exact ⟨_, (State.run_succ 2 (reset _)).trans drained, rfl, rfl⟩
  case fromD =>
    have drained := run_drain_d (s := s.resetOp) rest hb hr rfl rfl rfl (by simp) hi hj hk
    exact ⟨_, (State.run_succ 3 (reset _)).trans drained, rfl, rfl⟩

end Sys2Proof.Machine
end
